-- ==== Sys2Proof/Word.lean ====
section
/-! DEFINITION. Word: the width arithmetic of 92_eei_decisions.md D11 and nothing else. Every word of the block is a
`BitVec` whose width is computed from the configuration with the function below. -/

namespace Sys2Proof

/-- `ceil(log2 n)` for `n >= 1` (00_scope.md R9, 10_state.md R27): the least `k` with `n <= 2^k`. -/
def ceilLog2 (n : Nat) : Nat :=
  if n ≤ 1 then 0 else Nat.log2 (n - 1) + 1

end Sys2Proof
end

