-- ==== Sys2Proof/Config.lean ====
section
/-! DEFINITION. Config: what is fixed before reset (00_scope.md R8, R9): tap count, number format, coefficient table,
latencies; the widths computed from them; the well-formedness check of 60_exceptions.md R193; and the model's free
values, each a constant without a body. -/

namespace Sys2Proof

/-- The number format of samples and coefficients (00_scope.md R12). `custom` is an OPEN instantiation
(92_eei_decisions.md D9): its widths are given, its operations are the uninterpreted constants below, so what is shown
of it holds for every choice of them. `EXACT` has no width (41_feed.md R158) and is not a block's format: its operations
are `Machine.SampleOps.exact`. -/
inductive Format where
  | f32
  | pair (lane : Format)
  | custom (id wT wC : Nat)
deriving DecidableEq, Repr

/-- `W_T`, bits of one sample (00_scope.md R9, R12); a pair is two lanes (`2 * W_T0`). -/
@[reducible] def Format.wT : Format → Nat
  | .f32 => 32
  | .pair lane => lane.wT + lane.wT
  | .custom _ wT _ => wT

/-- `W_C`, bits of one coefficient (00_scope.md R9); a pair's coefficients are its lane's (41_feed.md R157). -/
@[reducible] def Format.wC : Format → Nat
  | .f32 => 32
  | .pair lane => lane.wC
  | .custom _ _ wC => wC

/-! ### Free values (no body: nothing can be shown of the value itself) -/

/-- The pattern from which the NaN produced by `F32` `add a b` is made (41_feed.md R154). DESIGN CHOICE, log 7. -/
opaque Config.addNaN : BitVec 32 → BitVec 32 → BitVec 32

/-- The pattern from which the NaN produced by `F32` `scale h c` is made (41_feed.md R154). DESIGN CHOICE, log 7. -/
opaque Config.scaleNaN : BitVec 32 → BitVec 32 → BitVec 32

/-- `zero` of an OPEN sample type (00_scope.md R10). Log 6. -/
opaque Config.customZero (id wT : Nat) : BitVec wT

/-- `add` of an OPEN sample type (00_scope.md R10). Log 6. -/
opaque Config.customAdd (id wT : Nat) : BitVec wT → BitVec wT → BitVec wT

/-- `scale` of an OPEN sample type (00_scope.md R10). Log 6. -/
opaque Config.customScale (id wT wC : Nat) : BitVec wT → BitVec wC → BitVec wT

/-- `CoefOps.eq` of an OPEN coefficient type (00_scope.md R11). Log 6. -/
opaque Config.customEq (id wC : Nat) : BitVec wC → BitVec wC → Bool

/-- Whether a coefficient of an OPEN type is a finite real value (60_exceptions.md R193, D10). Log 6. -/
opaque Config.customReal (id wC : Nat) : BitVec wC → Bool

/-! ### The configuration -/

/-- `zero : T` (00_scope.md R10): `+0.0` in `F32` (41_feed.md R150), both lanes zero in a pair (R157). -/
def Format.zero : (f : Format) → BitVec f.wT
  | .f32 => 0#32
  | .pair lane => lane.zero ++ lane.zero
  | .custom id wT _ => Config.customZero id wT

/-- A coefficient is a finite real value (60_exceptions.md R193, third clause): in `F32`, exponent field not all ones. -/
def Format.isReal : (f : Format) → BitVec f.wC → Bool
  | .f32, c => c.extractLsb' 23 8 != 255#8
  | .pair lane, c => lane.isReal c
  | .custom id _ wC, c => Config.customReal id wC c

/-- The widths of a format satisfy 00_scope.md R9: `W_T >= 1` and `W_C >= 1`. -/
def Format.widthsOk : Format → Bool
  | .f32 => true
  | .pair lane => lane.widthsOk
  | .custom _ wT wC => decide (1 ≤ wT) && decide (1 ≤ wC)

/-- `L_cmd` for each command, in clock edges (00_scope.md R9, 70_reset_and_hazards.md R241): finite, otherwise free.
Only the port binding (Machine/Port.lean) reads them. -/
structure Latency where
  size : Nat
  coef : Nat
  vsym : Nat
  new : Nat
  feed : Nat
  hist : Nat
  stat : Nat
  reserved7 : Nat
deriving DecidableEq, Repr

/-- A configuration as raw data (00_scope.md R9): it may be malformed. -/
structure Config where
  /-- tap count `N` -/
  n : Nat
  /-- the sample type `T`, the coefficient type `C` and their operations -/
  fmt : Format
  /-- `coef[0..N-1]`, each as its `W_C`-bit encoding -/
  coef : List (BitVec fmt.wC)
  latency : Latency
deriving DecidableEq, Repr

/-- `cfg_wf` of 60_exceptions.md R193, clause by clause. -/
def Config.wf (c : Config) : Bool :=
  decide (1 ≤ c.n) && decide (c.coef.length = c.n) && c.coef.all c.fmt.isReal && c.fmt.widthsOk

/-- A block's configuration: data paired with the proof that it is well formed. A malformed configuration has no block
(60_exceptions.md R193, decision D8). -/
structure Block extends Config where
  wf : toConfig.wf = true
deriving DecidableEq, Repr

theorem Block.n_pos (B : Block) : 0 < B.n := by
  have h := B.wf
  simp only [Config.wf, Bool.and_eq_true, decide_eq_true_eq] at h
  omega

theorem Block.coef_length (B : Block) : B.coef.length = B.n := by
  have h := B.wf
  simp only [Config.wf, Bool.and_eq_true, decide_eq_true_eq] at h
  exact h.1.1.2

/-- One sample, as its encoding: `enc_T` and `dec_T` are inverse bijections (30_encoding.md R83), so a value of `T` and its
`W_T` bits are the same thing here. Log 6. -/
abbrev Block.Sample (B : Block) : Type := BitVec B.fmt.wT

/-- One coefficient, as its `W_C`-bit encoding. Log 6. -/
abbrev Block.Coef (B : Block) : Type := BitVec B.fmt.wC

/-- The coefficient table `coef[0..N-1]` (10_state.md R35): exactly `N` elements, index type `Fin N` (20_memory.md R51). -/
def Block.table (B : Block) : Vector B.Coef B.n :=
  ⟨B.coef.toArray, by simpa using B.coef_length⟩

/-- `IDX_BITS = max(1, ceil(log2 N))` (00_scope.md R9, D11). -/
def Block.idxBits (B : Block) : Nat := max 1 (ceilLog2 B.n)

/-- `SIZE_BITS = ceil(log2(N+1))` (00_scope.md R9, D11). -/
def Block.sizeBits (B : Block) : Nat := ceilLog2 (B.n + 1)

/-- `DATA_BITS = max(W_T, W_C, SIZE_BITS, IDX_BITS + 8)` (00_scope.md R9, D11). -/
def Block.dataBits (B : Block) : Nat :=
  max (max B.fmt.wT B.fmt.wC) (max B.sizeBits (B.idxBits + 8))

/-- `CMD_BITS = DATA_BITS + 3` (30_encoding.md R81), written in the order in which `{op, data}` is concatenated. -/
def Block.cmdBits (B : Block) : Nat := 3 + B.dataBits

/-- Latencies all 0: the first beat is offered from the edge after acceptance. -/
def Latency.none : Latency := ⟨0, 0, 0, 0, 0, 0, 0, 0⟩

/-- The configuration `State.reset` takes: the source's own filter (95_test_vectors.md S1: `N = 4`, coefficients
`[1.0, 0.0, 2.0, 0.0]`) in the default format `F32` (R12, D9), for which opcode_table.json lays out its 35-bit words.
`N` and `coef` are OPEN in the spec. DESIGN CHOICE, log 2. -/
def Block.scenario : Block where
  n := 4
  fmt := .f32
  coef := [0x3F800000#32, 0x00000000#32, 0x40000000#32, 0x00000000#32]
  latency := Latency.none
  wf := by decide

end Sys2Proof
end

