-- ==== Sys2Proof/Syntax.lean ====
section
/-! DEFINITION. Syntax: the commands of SFIR (30_encoding.md R80), one constructor per row of spec/opcode_table.json. -/

namespace Sys2Proof

/-- A decoded command (30_encoding.md R86). Format O commands (R82) carry nothing: their data bits are ignored. -/
inductive Instr where
  /-- op 0: tap count (40_coefficient_table.md R110) -/
  | size
  /-- op 1: the coefficient table (R112) -/
  | coef
  /-- op 2: symmetry check (R114) -/
  | vsym
  /-- op 3: make the filter anew (43_control.md R180) -/
  | new
  /-- op 4: feed one sample (41_feed.md R130). `x` is the sample's code `data[W_T-1:0]` as an unsigned number: `W_T` belongs to
  the block's configuration, which a type of commands cannot mention. Log 16. -/
  | feed (x : Nat)
  /-- op 5: history introspection (42_history.md R172) -/
  | hist
  /-- op 6: cursor and fault code (43_control.md R184) -/
  | stat
  /-- op 7: the one reserved encoding, `Illegal` of R86 (R87) -/
  | reserved7
deriving DecidableEq, Repr

/-- The 3-bit `op` code of a command (30_encoding.md R80). -/
def Instr.op : Instr → BitVec 3
  | .size => 0
  | .coef => 1
  | .vsym => 2
  | .new => 3
  | .feed _ => 4
  | .hist => 5
  | .stat => 6
  | .reserved7 => 7

end Sys2Proof
end

