-- ==== Sys2Proof/WellFormed.lean ====
section
/-! DEFINITION. WellFormed: which commands a block of a given configuration can be sent. (Well-formedness of a
configuration is `Config.wf`, in Config.lean, because a `Block` carries its proof.) -/

namespace Sys2Proof

/-- The operand fits the sample's width `W_T` (30_encoding.md R82, R83); a command without operand is always well formed. -/
def Instr.wf (B : Block) : Instr → Bool
  | .size => true
  | .coef => true
  | .vsym => true
  | .new => true
  | .feed x => decide (x < 2 ^ B.fmt.wT)
  | .hist => true
  | .stat => true
  | .reserved7 => true

end Sys2Proof
end

