-- ==== Sys2Proof/Decode.lean ====
section
/-! DEFINITION. Decode: command words to commands (30_encoding.md R81, R82, R86), and the encoder beside it. -/

namespace Sys2Proof

/-- Why a number is no command word: the only thing the decoder can refuse (R86: every `CMD_BITS`-bit word decodes). -/
inductive DecodeError where
  /-- the number needs more than `CMD_BITS` bits, so it is no word of the command port -/
  | wordTooWide
deriving DecidableEq, Repr

/-- The packed command word `{op[2:0], data[DATA_BITS-1:0]}` (R81). -/
def packCommand (B : Block) (op : BitVec 3) (data : BitVec B.dataBits) : BitVec B.cmdBits :=
  op ++ data

/-- `op = cmd[DATA_BITS+2 : DATA_BITS]` (R81). -/
def opField (B : Block) (w : BitVec B.cmdBits) : BitVec 3 :=
  w.extractLsb' B.dataBits 3

/-- `data = cmd[DATA_BITS-1 : 0]` (R81). -/
def dataField (B : Block) (w : BitVec B.cmdBits) : BitVec B.dataBits :=
  w.extractLsb' 0 B.dataBits

/-- FEED's operand `data[W_T-1:0]` (R83): not extended, scaled or shifted; the bits above are ignored (R82). -/
def sampleField (B : Block) (data : BitVec B.dataBits) : B.Sample :=
  data.setWidth B.fmt.wT

/-- Decoding from the two fields, which the port carries on signals of their own (R81, R86). It is total. -/
def decodeFields (B : Block) (op : BitVec 3) (data : BitVec B.dataBits) : Instr :=
  match op.toNat with
  | 0 => .size
  | 1 => .coef
  | 2 => .vsym
  | 3 => .new
  | 4 => .feed (sampleField B data).toNat
  | 5 => .hist
  | 6 => .stat
  | _ => .reserved7

/-- `decode(cmd)` of R86: every `CMD_BITS`-bit word decodes to exactly one command. -/
def decode (B : Block) (w : BitVec B.cmdBits) : Instr :=
  decodeFields B (opField B w) (dataField B w)

/-- Decoding a number: the command word it spells, or the reason it spells none. -/
def decodeWord (B : Block) (w : Nat) : Except DecodeError Instr :=
  if w < 2 ^ B.cmdBits then .ok (decode B (BitVec.ofNat B.cmdBits w)) else .error .wordTooWide

/-- The data field a host sends with a command: FEED's sample code in the low `W_T` bits, every ignored bit zero (R82). -/
def encodeData (B : Block) : Instr → BitVec B.dataBits
  | .size => 0
  | .coef => 0
  | .vsym => 0
  | .new => 0
  | .feed x => (BitVec.ofNat B.fmt.wT x).setWidth B.dataBits
  | .hist => 0
  | .stat => 0
  | .reserved7 => 0

/-- The command word of a command, from the same table (R80 to R83). -/
def encode (B : Block) (i : Instr) : BitVec B.cmdBits :=
  packCommand B i.op (encodeData B i)

/-- The `op` bits of a word numbered as spec/opcode_table.json numbers them: bits 34 to 32 (35-bit layout, R86). -/
def tableOp (w : Nat) : BitVec 3 := BitVec.ofNat 3 (w >>> 32)

/-- The `data` bits of a word numbered as spec/opcode_table.json numbers them: bits 31 to 0. -/
def tableData (w : Nat) : BitVec 32 := BitVec.ofNat 32 w

/-- The command the decoder reads from the 35-bit word `w` of the table's layout, which is the layout of every `F32` block
with `IDX_BITS <= 24` (R81), the scenario's among them; a number of more than 35 bits is no such word. The command port
takes one word, so `_nbits`, the table's bit count in whole bytes, tells it nothing more. Log 9. -/
def decodeTableWord (_nbits w : Nat) : Option Instr :=
  match decodeWord Block.scenario w with
  | .ok i => some i
  | .error _ => none

end Sys2Proof
end

