-- ==== Sys2Proof/Machine/State.lean ====
section
/-! DEFINITION. State: the architectural state of one block (10_state.md R20), the two components it belongs to
(00_scope.md R2), what the host sends and receives, and the state after reset. Plain data throughout. -/

namespace Sys2Proof.Machine

/-- The RingFilter (00_scope.md R2, 10_state.md R22, R27): `n` history slots and the write cursor. Index types make an
access outside `[0, n)` impossible to write down, as 20_memory.md R51 asks; `len(history) = N` (R25) and
`0 <= cursor < N` (R28) hold by type. -/
structure RingFilter (T : Type) (n : Nat) where
  /-- the sample slots, reused in place -/
  history : Vector T n
  /-- the slot the next sample overwrites, which is the first in window order -/
  cursor : Fin n
deriving DecidableEq, Repr

/-- The filter as constructed: every slot `zero`, cursor 0 (10_state.md R37). -/
def RingFilter.fresh {T : Type} {n : Nat} (hn : 0 < n) (zero : T) : RingFilter T n where
  history := Vector.replicate n zero
  cursor := ⟨0, hn⟩

/-- Response status (30_encoding.md R90). Code 3 is never sent, so it has no constructor. -/
inductive Status where
  /-- 0: the command was executed; the beats carry its result -/
  | ok
  /-- 1: the command raised a fault; one beat, the cause code -/
  | fault
  /-- 2: the block was already in the fault state; nothing was done; one beat, the cause code -/
  | refused
deriving DecidableEq, Repr

/-- A response (30_encoding.md R92): a status and the beats in order; the `last` flag is set on the final beat only and
carries no further information. -/
structure Response (w : Nat) where
  status : Status
  beats : List (BitVec w)
deriving DecidableEq, Repr

/-- What the host can do to the block between two commands (60_exceptions.md R205, 70_reset_and_hazards.md R222): send one
command word, or assert reset. -/
inductive HostEvent (w : Nat) where
  | command (word : BitVec w)
  | reset
deriving DecidableEq, Repr

/-- One block. `cfg` is configuration (00_scope.md R8): no step changes it (log 1). `filter` and `fault` are the whole
architectural state (10_state.md R20). `host` and `rsp` are the input and the output of a step (R21, log 3). -/
structure State where
  /-- the configuration, coefficient table included -/
  cfg : Block
  /-- `history` and `cursor` -/
  filter : RingFilter cfg.Sample cfg.n
  /-- the sticky cause register, 3 bits (R30) -/
  fault : BitVec 3
  /-- the host's events not yet taken, oldest first -/
  host : List (HostEvent cfg.cmdBits)
  /-- the response the last step gave; none after a reset or a step without a command -/
  rsp : Option (Response cfg.dataBits)
deriving DecidableEq, Repr

/-- Reasons the machine stops with a fault. There are none: every command in every state has the effect the spec gives it
(41_feed.md R139, 60_exceptions.md R195, R201), and a raised fault is a next state of the block (R200, log 5). -/
inductive Fault where
deriving DecidableEq, Repr

/-- Reasons an instruction has no meaning. -/
inductive Refusal where
  /-- An instruction that has no meaning yet. Raised by no arm of `exec`: every row of the table is modelled. Safe. -/
  | notModelled (mnemonic : String)
deriving DecidableEq, Repr

/-- The block of configuration `B` right after reset (10_state.md R37, 70_reset_and_hazards.md R220), with no event waiting
(log 4) and no response given. -/
def State.resetOf (B : Block) : State where
  cfg := B
  filter := RingFilter.fresh B.n_pos B.fmt.zero
  fault := 0
  host := []
  rsp := none

/-- The machine right after reset, in the scenario's configuration (DESIGN CHOICE, log 2). -/
def State.reset : State := State.resetOf Block.scenario

end Sys2Proof.Machine
end

