-- ==== Sys2Proof/Machine/Operands.lean ====
section
/-! DEFINITION. Operands: the block's four addressing modes (20_memory.md R56 to R58), the window and its two views
(42_history.md R170, R171), and the form in which a value crosses the interface (30_encoding.md R83). -/

namespace Sys2Proof.Machine

/-- Circular effective index `(base + off) mod N` (20_memory.md R56, R57): the wrap is at `N`, not at a power of two. -/
def circular {n : Nat} (base off : Fin n) : Fin n :=
  ⟨(base.val + off.val) % n, Nat.mod_lt _ (Nat.lt_of_le_of_lt (Nat.zero_le _) base.isLt)⟩

/-- `(cursor + 1) mod N` (41_feed.md R132): the post-increment of the cursor-direct write. -/
def nextCursor {n : Nat} (c : Fin n) : Fin n :=
  ⟨(c.val + 1) % n, Nat.mod_lt _ (Nat.lt_of_le_of_lt (Nat.zero_le _) c.isLt)⟩

/-- The mirrored index `N - 1 - i` (20_memory.md R56, mirrored pair read). -/
def mirrored {n : Nat} (i : Fin n) : Fin n := ⟨n - 1 - i.val, by omega⟩

/-- Slot `off` in window order: `history[(cursor + off) mod N]` (10_state.md R42). -/
def RingFilter.slot {T : Type} {n : Nat} (f : RingFilter T n) (off : Fin n) : T :=
  f.history.get (circular f.cursor off)

/-- The window: the `N` stored samples, oldest first (10_state.md R42, 42_history.md R170). -/
def RingFilter.window {T : Type} {n : Nat} (f : RingFilter T n) : List T :=
  (List.finRange n).map f.slot

/-- `view_old = history[cursor..N]` (42_history.md R171): older samples up to the physical end of the buffer. -/
def RingFilter.viewOld {T : Type} {n : Nat} (f : RingFilter T n) : List T :=
  f.history.toList.drop f.cursor.val

/-- `view_new = history[0..cursor]` (42_history.md R171): from the physical start to the newest sample. -/
def RingFilter.viewNew {T : Type} {n : Nat} (f : RingFilter T n) : List T :=
  f.history.toList.take f.cursor.val

/-- A sample in a data field: right-aligned, upper bits zero (30_encoding.md R83). -/
def sampleBeat (B : Block) (v : B.Sample) : BitVec B.dataBits := v.setWidth B.dataBits

/-- A coefficient in a data field (30_encoding.md R83). -/
def coefBeat (B : Block) (c : B.Coef) : BitVec B.dataBits := c.setWidth B.dataBits

/-- A natural number in a data field, unsigned (30_encoding.md R83). -/
def natBeat (B : Block) (k : Nat) : BitVec B.dataBits := BitVec.ofNat B.dataBits k

/-- A cause code in a data field (30_encoding.md R83, R90). -/
def causeBeat (B : Block) (code : BitVec 3) : BitVec B.dataBits := code.setWidth B.dataBits

/-- FEED's operand: the low `W_T` bits of its code are the sample (30_encoding.md R82, R83). -/
def feedSample (B : Block) (x : Nat) : B.Sample := BitVec.ofNat B.fmt.wT x

end Sys2Proof.Machine
end

