-- ==== Sys2Proof/Machine/Flags.lean ====
section
/-! DEFINITION. Flags: the fault register and what is read from it (10_state.md R30, R34, 60_exceptions.md R191). There are
no arithmetic condition codes (10_state.md R31), so no instruction computes any other flag. -/

namespace Sys2Proof.Machine

/-- The causes a command can raise (60_exceptions.md R191). Code 2, MalformedInstantiation, has no run-time form (R193). -/
inductive Cause where
  /-- raised by VSYM when the table is not palindromic (60_exceptions.md R192) -/
  | symmetryViolation
  /-- raised by op 7 (60_exceptions.md R194) -/
  | illegalCommand
deriving DecidableEq, Repr

/-- Cause codes (10_state.md R30). -/
def Cause.code : Cause → BitVec 3
  | .symmetryViolation => 1
  | .illegalCommand => 3

/-- Status codes on `rsp_status[1:0]` (30_encoding.md R90); 3 is never sent. -/
def Status.code : Status → BitVec 2
  | .ok => 0
  | .fault => 1
  | .refused => 2

/-- The fault state, `fault != 0` (00_scope.md R17); also the level of the output `fault_o` (30_encoding.md R100). -/
def State.inFaultState (s : State) : Bool := s.fault != 0

/-- The STAT word `{cursor[IDX_BITS-1:0], 0b00000, fault[2:0]}`, zero-extended (10_state.md R34, 43_control.md R184). -/
def State.statWord (s : State) : BitVec s.cfg.dataBits :=
  (BitVec.ofNat s.cfg.idxBits s.filter.cursor.val ++ (0#5 ++ s.fault)).setWidth s.cfg.dataBits

end Sys2Proof.Machine
end

