-- ==== Sys2Proof/Machine/Float32.lean ====
section
/-! DEFINITION. Float32: IEEE 754 binary32 (30_encoding.md R84, 41_feed.md R150 to R155, 40_coefficient_table.md R117).
A finite pattern is an exact integer number of units of `2^-149`; a sum or a product is computed exactly and rounded
once, to nearest, ties to even. The spec marks these rules as general knowledge, not the source's: log 8. -/

namespace Sys2Proof.Machine

/-- Bit 31 (R84). -/
def F32.sign (b : BitVec 32) : Bool := b.extractLsb' 31 1 == 1#1

/-- Bits `[30:23]`, the biased exponent (R84). -/
def F32.expField (b : BitVec 32) : Nat := (b.extractLsb' 23 8).toNat

/-- Bits `[22:0]`, the trailing significand (R84). -/
def F32.frac (b : BitVec 32) : Nat := (b.extractLsb' 0 23).toNat

def F32.isNaN (b : BitVec 32) : Bool := F32.expField b == 255 && F32.frac b != 0

def F32.isInf (b : BitVec 32) : Bool := F32.expField b == 255 && F32.frac b == 0

def F32.isFinite (b : BitVec 32) : Bool := F32.expField b != 255

/-- The magnitude of a finite pattern in units of `2^-149` (subnormals included, R155). -/
def F32.magnitude (b : BitVec 32) : Nat :=
  if F32.expField b = 0 then F32.frac b else (2 ^ 23 + F32.frac b) * 2 ^ (F32.expField b - 1)

/-- The value of a finite pattern in units of `2^-149`. -/
def F32.units (b : BitVec 32) : Int :=
  if F32.sign b then -(F32.magnitude b : Int) else F32.magnitude b

/-- A pattern from a sign and the 31 bits below it. -/
def F32.pack (sign : Bool) (low : Nat) : BitVec 32 :=
  BitVec.ofBool sign ++ BitVec.ofNat 31 low

def F32.zeroOf (sign : Bool) : BitVec 32 := F32.pack sign 0

def F32.infOf (sign : Bool) : BitVec 32 := F32.pack sign 0x7F800000

/-- The NaN made from a pattern: its sign and trailing significand, with exponent all ones; an all-zero significand, which
would spell an infinity, becomes 1. Every NaN pattern is made from itself. -/
def F32.nanOf (p : BitVec 32) : BitVec 32 :=
  F32.pack (F32.sign p) (0x7F800000 + (if F32.frac p = 0 then 1 else F32.frac p))

/-- `num / den` to the nearest integer, ties to even. -/
def F32.nearestEven (num den : Nat) : Nat :=
  let q := num / den
  let r := num % den
  if 2 * r > den ∨ (2 * r = den ∧ q % 2 = 1) then q + 1 else q

/-- The number of low bits that do not fit a 24-bit significand: the quantum is `2^shift` units. -/
def F32.shift (num den : Nat) : Nat := Nat.log2 (num / den) + 1 - 24

/-- Round `num / den` units of `2^-149` to binary32, to nearest, ties to even; gradual underflow below, an infinity above
(R151, R152, R155). A significand of `2^23 .. 2^24` at shift `e` is the pattern `e * 2^23 + significand`: the hidden bit
and a carry out of the significand both step the exponent field. -/
def F32.round (sign : Bool) (num den : Nat) : BitVec 32 :=
  let e := F32.shift num den
  let low := e * 2 ^ 23 + F32.nearestEven num (den * 2 ^ e)
  if low < 0x7F800000 then F32.pack sign low else F32.infOf sign

/-- `add` of two finite values: the exact sum, rounded once. An exact zero is `+0` unless both operands are `-0` (R151). -/
def F32.addFinite (a b : BitVec 32) : BitVec 32 :=
  let z := F32.units a + F32.units b
  if z = 0 then F32.zeroOf (F32.sign a && F32.sign b) else F32.round (decide (z < 0)) z.natAbs 1

/-- `add(a, b)` of `F32` (41_feed.md R151, R154). The NaN's pattern is a free value. -/
def F32.add (a b : BitVec 32) : BitVec 32 :=
  if F32.isNaN a || F32.isNaN b then F32.nanOf (Config.addNaN a b)
  else if F32.isInf a then
    if F32.isInf b && F32.sign a != F32.sign b then F32.nanOf (Config.addNaN a b) else a
  else if F32.isInf b then b
  else F32.addFinite a b

/-- `scale(h, c)` of `F32`: multiplication, rounded once; the sign is the exclusive-or (41_feed.md R152, R154). -/
def F32.scale (h c : BitVec 32) : BitVec 32 :=
  let sign := F32.sign h ^^ F32.sign c
  if F32.isNaN h || F32.isNaN c then F32.nanOf (Config.scaleNaN h c)
  else if F32.isInf h then
    if F32.isFinite c && F32.magnitude c == 0 then F32.nanOf (Config.scaleNaN h c) else F32.infOf sign
  else if F32.isInf c then
    if F32.magnitude h == 0 then F32.nanOf (Config.scaleNaN h c) else F32.infOf sign
  else F32.round sign (F32.magnitude h * F32.magnitude c) (2 ^ 149)

/-- `eq` of `F32`: IEEE 754 quiet equality (40_coefficient_table.md R117): `+0` equals `-0`, a NaN equals nothing. -/
def F32.eq (a b : BitVec 32) : Bool :=
  !F32.isNaN a && !F32.isNaN b && (a == b || (F32.magnitude a == 0 && F32.magnitude b == 0))

end Sys2Proof.Machine
end

