-- ==== Sys2Proof/Machine/SampleOps.lean ====
section
/-! DEFINITION. SampleOps: the operations the block performs on samples and coefficients (00_scope.md R10, R11), and the
named instantiations of R12. Everything that computes with samples takes a `SampleOps` as a parameter. -/

namespace Sys2Proof.Machine

/-- The only three operations the convolution performs on samples (00_scope.md R10). Nothing more is assumed of them: not
associativity, not commutativity, not that `zero` is neutral. -/
structure SampleOps (T C : Type) where
  zero : T
  add : T → T → T
  scale : T → C → T

/-- Lane 0 of a pair, the low bits (30_encoding.md R85). -/
def laneLow {w : Nat} (p : BitVec (w + w)) : BitVec w := p.extractLsb' 0 w

/-- Lane 1 of a pair, the high bits (30_encoding.md R85). -/
def laneHigh {w : Nat} (p : BitVec (w + w)) : BitVec w := p.extractLsb' w w

/-- `{lane 1, lane 0}` (30_encoding.md R85). -/
def pairOf {w : Nat} (low high : BitVec w) : BitVec (w + w) := high ++ low

/-- `add` of a format: binary32 (41_feed.md R151), lane by lane (R157), or an OPEN type's own. -/
def formatAdd : (f : Format) → BitVec f.wT → BitVec f.wT → BitVec f.wT
  | .f32, a, b => F32.add a b
  | .pair lane, a, b =>
    pairOf (formatAdd lane (laneLow a) (laneLow b)) (formatAdd lane (laneHigh a) (laneHigh b))
  | .custom id wT _, a, b => Config.customAdd id wT a b

/-- `scale` of a format, sample first (41_feed.md R144): binary32 (R152), lane by lane with one coefficient (R157), or an
OPEN type's own. -/
def formatScale : (f : Format) → BitVec f.wT → BitVec f.wC → BitVec f.wT
  | .f32, h, c => F32.scale h c
  | .pair lane, h, c => pairOf (formatScale lane (laneLow h) c) (formatScale lane (laneHigh h) c)
  | .custom id wT wC, h, c => Config.customScale id wT wC h c

/-- `CoefOps.eq` of a format (00_scope.md R11, 40_coefficient_table.md R117): equality of values, not of encodings. -/
def formatEq : (f : Format) → BitVec f.wC → BitVec f.wC → Bool
  | .f32, a, b => F32.eq a b
  | .pair lane, a, b => formatEq lane a b
  | .custom id _ wC, a, b => Config.customEq id wC a b

/-- The one operation the block performs on coefficients alone: `eq` (00_scope.md R11), equality of values. -/
structure CoefOps (C : Type) where
  eq : C → C → Bool

/-- The `CoefOps` of a block's format. -/
def formatCoefOps (f : Format) : CoefOps (BitVec f.wC) where
  eq := formatEq f

/-- The `SampleOps` of a block's format. -/
def formatOps (f : Format) : SampleOps (BitVec f.wT) (BitVec f.wC) where
  zero := f.zero
  add := formatAdd f
  scale := formatScale f

/-- `EXACT` (41_feed.md R158): the rationals, for properties that hold without rounding. -/
def SampleOps.exact : SampleOps ℚ ℚ where
  zero := 0
  add := fun a b => a + b
  scale := fun h c => h * c

/-- `eq` of `EXACT` (41_feed.md R158): equality of rationals. -/
def CoefOps.exact : CoefOps ℚ where
  eq := fun a b => decide (a = b)

/-- The hypothesis under which superposition holds (41_feed.md R161): `add` is associative and commutative with neutral
element `zero`, and `scale` distributes over `add`. `EXACT` meets it; `F32` does not. -/
structure SampleOps.Linear {T C : Type} (ops : SampleOps T C) : Prop where
  assoc : ∀ a b c, ops.add (ops.add a b) c = ops.add a (ops.add b c)
  comm : ∀ a b, ops.add a b = ops.add b a
  neutral : ∀ a, ops.add ops.zero a = a
  distrib : ∀ a b c, ops.scale (ops.add a b) c = ops.add (ops.scale a c) (ops.scale b c)

end Sys2Proof.Machine
end

