-- ==== Sys2Proof/Machine/Ops.lean ====
section
/-! DEFINITION. Ops: the named operations every command is built from: slot writes, the convolution, responding, raising a
fault, refusal in the fault state, reset, and taking the host's next event. -/

namespace Sys2Proof.Machine

/-! ### The ring filter -/

/-- Step 1 of FEED: `history[cursor] <- x`, cursor-direct write of one whole element (41_feed.md R131, 20_memory.md R52). -/
def RingFilter.store {T : Type} {n : Nat} (f : RingFilter T n) (x : T) : RingFilter T n :=
  { f with history := f.history.set f.cursor.val x f.cursor.isLt }

/-- Step 2 of FEED: `cursor <- (cursor + 1) mod N` (41_feed.md R132). -/
def RingFilter.advance {T : Type} {n : Nat} (f : RingFilter T n) : RingFilter T n :=
  { f with cursor := nextCursor f.cursor }

/-- Term `j` of the sum: `scale(history[(idx + j) mod N], coef[j])`, `idx` being the cursor of `f` (41_feed.md R134). -/
def RingFilter.term {T C : Type} {n : Nat} (ops : SampleOps T C) (coef : Vector C n)
    (f : RingFilter T n) (j : Fin n) : T :=
  ops.scale (f.slot j) (coef.get j)

/-- One multiply-accumulate step (00_scope.md R17): two operations, each rounded on its own (41_feed.md R134 (b)). -/
def RingFilter.mac {T C : Type} {n : Nat} (ops : SampleOps T C) (coef : Vector C n)
    (f : RingFilter T n) (acc : T) (j : Fin n) : T :=
  ops.add acc (f.term ops coef j)

/-- Step 3 of FEED: the left fold of 41_feed.md R134, from `zero`, over `j = 0, 1, ..., N-1` in this order, skipping no
term; the cursor of `f` is `idx`. -/
def RingFilter.output {T C : Type} {n : Nat} (ops : SampleOps T C) (coef : Vector C n)
    (f : RingFilter T n) : T :=
  (List.finRange n).foldl (f.mac ops coef) ops.zero

/-- FEED on the filter (41_feed.md R130): store, advance, then convolve with the post-advance cursor (R138). -/
def RingFilter.feed {T C : Type} {n : Nat} (ops : SampleOps T C) (coef : Vector C n)
    (f : RingFilter T n) (x : T) : RingFilter T n × T :=
  let f' := (f.store x).advance
  (f', f'.output ops coef)

/-- The filter after a sequence of feeds, and the responses in order. -/
def RingFilter.feedAll {T C : Type} {n : Nat} (ops : SampleOps T C) (coef : Vector C n) :
    RingFilter T n → List T → RingFilter T n × List T
  | f, [] => (f, [])
  | f, x :: xs =>
    let r := f.feed ops coef x
    let rest := RingFilter.feedAll ops coef r.1 xs
    (rest.1, r.2 :: rest.2)

/-! ### The coefficient table -/

/-- The `SampleOps` of a block. -/
def blockOps (B : Block) : SampleOps B.Sample B.Coef := formatOps B.fmt

/-- `palindromic(coef)` (40_coefficient_table.md R114, R115) for any coefficient type: the pairs `(i, N-1-i)` for `i` in
`[0, N/2)`, floor division; for odd `N` the middle element is compared with nothing (R116). -/
def CoefOps.palindromic {C : Type} {n : Nat} (ops : CoefOps C) (coef : Vector C n) : Bool :=
  (List.finRange n).all fun i =>
    decide (n / 2 ≤ i.val) || ops.eq (coef.get i) (coef.get (mirrored i))

/-- The symmetry check of a block. -/
def palindromic (B : Block) : Bool := (formatCoefOps B.fmt).palindromic B.table

/-! ### Responses, raising, refusal -/

/-- `respond(status, beats)` (00_scope.md R14, 30_encoding.md R90): the command's response. -/
def State.respond (s : State) (status : Status) (beats : List (BitVec s.cfg.dataBits)) : State :=
  { s with rsp := some ⟨status, beats⟩ }

/-- `raise X()`, the whole of taking an exception (60_exceptions.md R200): `fault` gets the cause code, the response is
FAULT with that code, and nothing else is saved or changed. -/
def State.raise (s : State) (c : Cause) : State :=
  { s with fault := c.code, rsp := some ⟨.fault, [causeBeat s.cfg c.code]⟩ }

/-- Refusal in the fault state (60_exceptions.md R201): no state change at all, REFUSED with the value of `fault`. -/
def State.refuse (s : State) : State := s.respond .refused [causeBeat s.cfg s.fault]

/-- The test every command but STAT starts with (60_exceptions.md R201, R203): refused in the fault state, run otherwise. -/
def unlessFaulted (s : State) (run : State → State) : Host.Outcome State Fault Refusal :=
  .next (if s.inFaultState then s.refuse else run s)

/-- The filter as newly constructed, nothing else changed (43_control.md R180). -/
def State.freshFilter (s : State) : State :=
  { s with filter := RingFilter.fresh s.cfg.n_pos s.cfg.fmt.zero }

/-- Reset (70_reset_and_hazards.md R220): every slot zero, cursor 0, fault 0, no response. It is the only way out of the
fault state (60_exceptions.md R202) and does not touch the configuration (R223). -/
def State.hardReset (s : State) : State :=
  { s with filter := RingFilter.fresh s.cfg.n_pos s.cfg.fmt.zero, fault := 0, rsp := none }

/-! ### The host's events -/

/-- The state once the host's oldest event is taken. -/
def State.dropEvent (s : State) : State := { s with host := s.host.tail }

/-- No command waits: the block holds its state (60_exceptions.md R215) and gives no response. -/
def State.idle (s : State) : State := { s with rsp := none }

/-- The command word of the port, for a word numbered as opcode_table.json numbers it: its `op` bits and its 32 data bits,
the latter in this block's data field (30_encoding.md R81, R83). Log 9. -/
def tableCommand (B : Block) (w : Nat) : BitVec B.cmdBits :=
  packCommand B (tableOp w) ((tableData w).setWidth B.dataBits)

end Sys2Proof.Machine
end

