-- ==== Sys2Proof/Machine/Control.lean ====
section
/-! DEFINITION. Control: NEW and STAT (43_control.md), and the reserved command code (60_exceptions.md R194). -/

namespace Sys2Proof.Machine

/-- NEW (R180): every slot zero, cursor 0; `fault` is not written (R182). -/
def execNew (s : State) : Host.Outcome State Fault Refusal :=
  unlessFaulted s fun s => s.freshFilter.respond .ok [natBeat s.cfg 0]

/-- STAT (R184): one beat, the STAT word. The only command executed in the fault state (60_exceptions.md R201). -/
def execStat (s : State) : Host.Outcome State Fault Refusal :=
  .next (s.respond .ok [s.statWord])

/-- op 7 (30_encoding.md R87, 60_exceptions.md R194): raises IllegalCommand; its data field is ignored. -/
def execReserved7 (s : State) : Host.Outcome State Fault Refusal :=
  unlessFaulted s fun s => s.raise .illegalCommand

end Sys2Proof.Machine
end

