-- ==== Sys2Proof/Machine/Feed.lean ====
section
/-! DEFINITION. Feed: FEED, the operation the block exists for (41_feed.md). -/

namespace Sys2Proof.Machine

/-- FEED (R130): store at the cursor, advance it, respond with the convolution of the new window. It cannot fail (R139) and
does not write `fault`. -/
def execFeed (x : Nat) (s : State) : Host.Outcome State Fault Refusal :=
  unlessFaulted s fun s =>
    let r := s.filter.feed (blockOps s.cfg) s.cfg.table (feedSample s.cfg x)
    { s with filter := r.1, rsp := some ⟨.ok, [sampleBeat s.cfg r.2]⟩ }

end Sys2Proof.Machine
end

