-- ==== Sys2Proof/Machine/History.lean ====
section
/-! DEFINITION. History: HIST, history introspection (42_history.md). -/

namespace Sys2Proof.Machine

/-- HIST (R172): `N` beats, the window oldest first, each sample bit for bit as it was fed (R174). -/
def execHist (s : State) : Host.Outcome State Fault Refusal :=
  unlessFaulted s fun s => s.respond .ok (s.filter.window.map (sampleBeat s.cfg))

end Sys2Proof.Machine
end

