-- ==== Sys2Proof/Machine/Table.lean ====
section
/-! DEFINITION. Table: the coefficient table commands SIZE, COEF and VSYM (40_coefficient_table.md). -/

namespace Sys2Proof.Machine

/-- SIZE (R110): one beat, `N`. -/
def execSize (s : State) : Host.Outcome State Fault Refusal :=
  unlessFaulted s fun s => s.respond .ok [natBeat s.cfg s.cfg.n]

/-- COEF (R112): `N` beats, the table in increasing index order. -/
def execCoef (s : State) : Host.Outcome State Fault Refusal :=
  unlessFaulted s fun s =>
    s.respond .ok ((List.finRange s.cfg.n).map fun k => coefBeat s.cfg (s.cfg.table.get k))

/-- VSYM (R114): OK with one beat 0 when the table is palindromic, else SymmetryViolation. It reads neither history nor
cursor. -/
def execVsym (s : State) : Host.Outcome State Fault Refusal :=
  unlessFaulted s fun s =>
    if palindromic s.cfg then s.respond .ok [natBeat s.cfg 0] else s.raise .symmetryViolation

end Sys2Proof.Machine
end

