-- ==== Sys2Proof/Machine/Dispatch.lean ====
section
/-! DEFINITION. Dispatch: one arm per command (60_exceptions.md R201). -/

namespace Sys2Proof.Machine

def exec (i : Instr) (s : State) : Host.Outcome State Fault Refusal :=
  match i with
  | .size => Sys2Proof.Machine.execSize s
  | .coef => Sys2Proof.Machine.execCoef s
  | .vsym => Sys2Proof.Machine.execVsym s
  | .new => Sys2Proof.Machine.execNew s
  | .feed x => Sys2Proof.Machine.execFeed x s
  | .hist => Sys2Proof.Machine.execHist s
  | .stat => Sys2Proof.Machine.execStat s
  | .reserved7 => Sys2Proof.Machine.execReserved7 s

end Sys2Proof.Machine
end

