-- ==== Sys2Proof/Machine/Step.lean ====
section
/-! DEFINITION. Step: one transaction (00_scope.md R19, 20_memory.md R60). The host's oldest event is taken: a command word
is decoded and executed whole, or the block is reset (70_reset_and_hazards.md R222); with no event the block waits. -/

namespace Sys2Proof.Machine

def step (s : State) : Host.Outcome State Fault Refusal :=
  match s.host with
  | [] => .next s.idle
  | .reset :: _ => .next s.dropEvent.hardReset
  | .command word :: _ => exec (decode s.cfg word) s.dropEvent

/-- `s` with the word `w`, numbered as opcode_table.json numbers it, as the host's oldest event, so that the next step decodes
and runs it. One word is a whole command, so `_nbits` plays no part. Logs 4 and 9. -/
def State.withFetchWord (s : State) (_nbits w : Nat) : State :=
  { s with host := .command (tableCommand s.cfg w) :: s.host }

end Sys2Proof.Machine
end

