-- ==== Sys2Proof/Machine/Assembler.lean ====
section
/-! DEFINITION. Assembler: the text form of command sequences (30_encoding.md R93 to R95): the grammar as data, what each
line stands for, and a reader from characters. Blanks separate words and nothing else; a decimal may carry a sign (log 17);
the form of numbers is log 24's, the range of `.cmd` log 25's. -/

namespace Sys2Proof.Machine

/-! ### The grammar as data (R93) -/

/-- `literal` (R94). -/
inductive Literal where
  /-- `±digits / 10^places` -/
  | decimal (negative : Bool) (digits places : Nat)
  /-- a `0x` literal: how many hex digits it has, and its value -/
  | hex (digits value : Nat)
  | pair (a b : Literal)
deriving DecidableEq, Repr

/-- `tname` (R93). -/
inductive TypeName where
  | f32
  | exact
  | pair (lane : TypeName)
deriving DecidableEq, Repr

/-- `command`, `pseudo`, `.cmd`, or nothing on the line (R93). -/
inductive AsmLine where
  | size
  | coef
  | vsym
  | new
  | hist
  | stat
  | feed (x : Literal)
  /-- `.cmd op, data`: the one command word `{op[2:0], data}` (R95) -/
  | raw (op data : Nat)
  /-- `FEEDS v0, ..., vm` (R95) -/
  | feeds (xs : List Literal)
  /-- `FLUSH` (R95) -/
  | flush
  | blank
deriving DecidableEq, Repr

/-- `program ::= config line*` (R93). -/
structure AsmProgram where
  n : Nat
  type : TypeName
  coef : List Literal
  lines : List AsmLine
deriving DecidableEq, Repr

/-! ### What it stands for -/

/-- The format a type name selects. `EXACT` has no encoding (41_feed.md R158), so no block and no command words. -/
def TypeName.format : TypeName → Option Format
  | .f32 => some .f32
  | .exact => none
  | .pair lane => lane.format.map Format.pair

/-- The binary32 value nearest to `±digits / 10^places`, ties to even (R94). The sign of a zero is kept and a number from the
overflow threshold on is an infinity: DESIGN CHOICE, log 24. -/
def F32.ofDecimal (negative : Bool) (digits places : Nat) : BitVec 32 :=
  F32.round negative (digits * 2 ^ 149) (10 ^ places)

/-- An `F32` literal: a decimal, or the pattern of eight hex digits (R94). -/
def F32.ofLiteral : Literal → Option (BitVec 32)
  | .decimal s d p => some (F32.ofDecimal s d p)
  | .hex digits v => if digits = 8 then some (BitVec.ofNat 32 v) else none
  | .pair _ _ => none

/-- An `EXACT` literal: a decimal is that rational exactly (R94). A pattern or a pair denotes no rational. -/
def exactLiteral : Literal → Option ℚ
  | .decimal negative digits places =>
    some (if negative then -((digits : ℚ) / 10 ^ places) else (digits : ℚ) / 10 ^ places)
  | .hex _ _ => none
  | .pair _ _ => none

/-- A sample literal of a format: `(a, b)` denotes the pair, `a` in the low lane (R94, R85). An OPEN format has no literals. -/
def sampleLiteral : (f : Format) → Literal → Option (BitVec f.wT)
  | .f32, l => F32.ofLiteral l
  | .pair lane, .pair a b =>
    match sampleLiteral lane a, sampleLiteral lane b with
    | some x, some y => some (y ++ x)
    | _, _ => none
  | .pair _, .decimal _ _ _ => none
  | .pair _, .hex _ _ => none
  | .custom _ _ _, _ => none

/-- A coefficient literal of a format: a pair's coefficients are its lane's (41_feed.md R157). -/
def coefLiteral : (f : Format) → Literal → Option (BitVec f.wC)
  | .f32, l => F32.ofLiteral l
  | .pair lane, l => coefLiteral lane l
  | .custom _ _ _, _ => none

/-- `FEED literal` as a command. -/
def feedOf (B : Block) (l : Literal) : Option Instr :=
  (sampleLiteral B.fmt l).map fun v => .feed v.toNat

/-- The command words of a line, pseudo-instructions expanded (R95): `FEEDS` is one `FEED` for each literal in order, `FLUSH`
is `N` times `FEED zero`. `none` where a literal denotes nothing in the block's type. `.cmd op, data` has no word where `op` is
above 7 or `data` needs more than `DATA_BITS` bits, which R95 leaves open: DESIGN CHOICE, log 25. -/
def AsmLine.words (B : Block) : AsmLine → Option (List (BitVec B.cmdBits))
  | .size => some [encode B .size]
  | .coef => some [encode B .coef]
  | .vsym => some [encode B .vsym]
  | .new => some [encode B .new]
  | .hist => some [encode B .hist]
  | .stat => some [encode B .stat]
  | .feed x => (feedOf B x).map fun i => [encode B i]
  | .raw op data =>
    if op < 8 ∧ data < 2 ^ B.dataBits then
      some [packCommand B (BitVec.ofNat 3 op) (BitVec.ofNat B.dataBits data)]
    else none
  | .feeds xs => (xs.mapM (feedOf B)).map fun is => is.map (encode B)
  | .flush => some (List.replicate B.n (encode B (.feed B.fmt.zero.toNat)))
  | .blank => some []

/-- The block a program's `.config` line describes, if it is well formed (R93, 60_exceptions.md R193): latencies, of which the
text says nothing, are 0. -/
def AsmProgram.block (p : AsmProgram) : Option Block :=
  match p.type.format with
  | none => none
  | some f =>
    match p.coef.mapM (coefLiteral f) with
    | none => none
    | some cs =>
      let c : Config := ⟨p.n, f, cs, Latency.none⟩
      if h : c.wf = true then some ⟨c, h⟩ else none

/-- The command words of a program for the block it is meant for. -/
def AsmProgram.words (B : Block) (p : AsmProgram) : Option (List (BitVec B.cmdBits)) :=
  (p.lines.mapM (AsmLine.words B)).map List.flatten

/-! ### From characters -/

/-- One word or one mark of a line. -/
abbrev Token := List Char

/-- The characters that are tokens by themselves. -/
def isMark (c : Char) : Bool := c == '=' || c == ',' || c == '[' || c == ']' || c == '(' || c == ')'

def isBlank (c : Char) : Bool := c == ' ' || c == '\t' || c == '\r'

/-- A finished word goes before the tokens that follow it. -/
def flushWord (word : Token) (rest : List Token) : List Token :=
  if word.isEmpty then rest else word.reverse :: rest

/-- The tokens of a line; a `;` starts a comment (R93). `word` is the word being read, last character first. -/
def tokensOf (word : Token) : List Char → List Token
  | [] => flushWord word []
  | c :: cs =>
    if c == ';' then flushWord word []
    else if isBlank c then flushWord word (tokensOf [] cs)
    else if isMark c then flushWord word ([c] :: tokensOf [] cs)
    else tokensOf (c :: word) cs

/-- The lines of a text. `line` is the line being read, last character first. -/
def linesOf (line : List Char) : List Char → List (List Char)
  | [] => [line.reverse]
  | c :: cs => if c == '\n' then line.reverse :: linesOf [] cs else linesOf (c :: line) cs

def decimalDigit (c : Char) : Option Nat :=
  if '0' ≤ c ∧ c ≤ '9' then some (c.toNat - '0'.toNat) else none

def hexDigit (c : Char) : Option Nat :=
  if '0' ≤ c ∧ c ≤ '9' then some (c.toNat - '0'.toNat)
  else if 'a' ≤ c ∧ c ≤ 'f' then some (c.toNat - 'a'.toNat + 10)
  else if 'A' ≤ c ∧ c ≤ 'F' then some (c.toNat - 'A'.toNat + 10)
  else none

/-- The number a digit string spells in a base; at least one digit, leading zeros allowed. -/
def numberOf (base : Nat) (digit : Char → Option Nat) : List Char → Option Nat
  | [] => none
  | c :: cs => (c :: cs).foldl (fun acc d => do return (← acc) * base + (← digit d)) (some 0)

def natOf (t : Token) : Option Nat := numberOf 10 decimalDigit t

/-- `hex`, whose form R93 leaves open: `0x` and at least one hex digit, of either case; how many, and the value. DESIGN CHOICE,
log 24. -/
def hexOf : Token → Option (Nat × Nat)
  | '0' :: 'x' :: ds => (numberOf 16 hexDigit ds).map fun v => (ds.length, v)
  | _ => none

/-- `decimal`, whose form the grammar of R93 leaves open: decimal digits with at most one point among them, before or after
them, at least one digit, no exponent. DESIGN CHOICE, log 24. -/
def unsignedDecimalOf (negative : Bool) (t : Token) : Option Literal :=
  match t.span (fun c => c != '.') with
  | (whole, []) => (natOf whole).map fun d => .decimal negative d 0
  | (whole, _ :: places) => (natOf (whole ++ places)).map fun d => .decimal negative d places.length

def numberLiteralOf (t : Token) : Option Literal :=
  match hexOf t with
  | some (k, v) => some (.hex k v)
  | none =>
    match t with
    | '-' :: ds => unsignedDecimalOf true ds
    | '+' :: ds => unsignedDecimalOf false ds
    | ds => unsignedDecimalOf false ds

/-- A literal at the head of the tokens, and the tokens after it. Each nesting of a pair uses up one unit of `depth`. -/
def literalAt : (depth : Nat) → List Token → Option (Literal × List Token)
  | _, [] => none
  | 0, t :: ts => (numberLiteralOf t).map fun l => (l, ts)
  | depth + 1, t :: ts =>
    if t == ['('] then
      match literalAt depth ts with
      | some (a, [','] :: ts') =>
        match literalAt depth ts' with
        | some (b, [')'] :: ts'') => some (.pair a b, ts'')
        | _ => none
      | _ => none
    else (numberLiteralOf t).map fun l => (l, ts)

/-- `literal ("," literal)*`, and the tokens after it. `fuel` bounds the number of literals. -/
def literalsAt : (fuel : Nat) → List Token → Option (List Literal × List Token)
  | 0, _ => none
  | fuel + 1, ts =>
    match literalAt ts.length ts with
    | none => none
    | some (l, [','] :: ts') => (literalsAt fuel ts').map fun r => (l :: r.1, r.2)
    | some (l, ts') => some ([l], ts')

/-- `tname`, and the tokens after it. -/
def typeNameAt : (depth : Nat) → List Token → Option (TypeName × List Token)
  | _, [] => none
  | depth, t :: ts =>
    if t == ['F', '3', '2'] then some (.f32, ts)
    else if t == ['E', 'X', 'A', 'C', 'T'] then some (.exact, ts)
    else
      match depth with
      | 0 => none
      | depth + 1 =>
        if t == ['P', 'A', 'I', 'R'] then
          match ts with
          | ['('] :: ts' =>
            match typeNameAt depth ts' with
            | some (lane, [')'] :: ts'') => some (.pair lane, ts'')
            | _ => none
          | _ => none
        else none

/-- `line`: exactly one command, pseudo-instruction or raw word, or nothing (R93). -/
def lineOf (ts : List Token) : Option AsmLine :=
  match ts with
  | [] => some .blank
  | t :: rest =>
    if t == ['F', 'E', 'E', 'D'] then
      match literalAt rest.length rest with
      | some (l, []) => some (.feed l)
      | _ => none
    else if t == ['F', 'E', 'E', 'D', 'S'] then
      match literalsAt rest.length rest with
      | some (ls, []) => some (.feeds ls)
      | _ => none
    else if t == ['.', 'c', 'm', 'd'] then
      match rest with
      | [op, [','], data] => do return .raw (← natOf op) (← hexOf data).2
      | _ => none
    else if rest.isEmpty then
      if t == ['S', 'I', 'Z', 'E'] then some .size
      else if t == ['C', 'O', 'E', 'F'] then some .coef
      else if t == ['V', 'S', 'Y', 'M'] then some .vsym
      else if t == ['N', 'E', 'W'] then some .new
      else if t == ['H', 'I', 'S', 'T'] then some .hist
      else if t == ['S', 'T', 'A', 'T'] then some .stat
      else if t == ['F', 'L', 'U', 'S', 'H'] then some .flush
      else none
    else none

/-- `.config N=nat T=tname coef=[literal, ...]` (R93). -/
def configOf (ts : List Token) : Option (Nat × TypeName × List Literal) :=
  match ts with
  | key :: kN :: ['='] :: n :: kT :: ['='] :: rest =>
    if key == ['.', 'c', 'o', 'n', 'f', 'i', 'g'] && kN == ['N'] && kT == ['T'] then
      match typeNameAt rest.length rest with
      | some (ty, kC :: ['='] :: ['['] :: rest') =>
        if kC == ['c', 'o', 'e', 'f'] then
          match literalsAt rest'.length rest' with
          | some (ls, [[']']]) => (natOf n).map fun k => (k, ty, ls)
          | _ => none
        else none
      | _ => none
    else none
  | _ => none

/-- A program from its text: the `.config` line first, then one command to a line (R93). -/
def programOf (text : List Char) : Option AsmProgram :=
  match (linesOf [] text).map (tokensOf []) with
  | [] => none
  | first :: rest =>
    match configOf first, rest.mapM lineOf with
    | some (n, ty, ls), some ls' => some ⟨n, ty, ls, ls'⟩
    | _, _ => none

end Sys2Proof.Machine
end

