-- ==== Sys2Proof/Machine/Instances.lean ====
section
/-! DEFINITION. Instances: a system of several blocks (10_state.md R40, 20_memory.md R69, 60_exceptions.md R213): the product
of independent states, each with its own command stream. What tells the blocks apart is the platform's; here it is a
position in a list. -/

namespace Sys2Proof.Machine

/-- A system of blocks. -/
structure BlockSystem where
  blocks : List State
deriving DecidableEq, Repr

/-- One step of block `k`; the other blocks do nothing. A position that names no block changes nothing. -/
def BlockSystem.stepOne (y : BlockSystem) (k : Nat) : BlockSystem :=
  match y.blocks[k]? with
  | none => y
  | some s =>
    match step s with
    | .next t => ⟨y.blocks.set k t⟩
    | .fault _ => y
    | .refused _ => y

/-- Steps in the order the platform takes them; every interleaving is one such order (R213, log 13). -/
def BlockSystem.run (y : BlockSystem) : List Nat → BlockSystem
  | [] => y
  | k :: ks => (y.stepOne k).run ks

end Sys2Proof.Machine
end

