-- ==== Sys2Proof/Machine/Port.lean ====
section
/-! DEFINITION. Port: the port binding of 30_encoding.md R100 to R103, one rising edge of `clk` at a time, around the
transaction-level machine. No rule about values depends on it (R104). A command takes effect at the edge that accepts it,
which R103 allows (log 10). -/

namespace Sys2Proof.Machine

/-- The input pins at one rising edge (R100). `cmdData` is the number on the data lines; the block has `DATA_BITS` of them. -/
structure PortIn where
  rst : Bool
  cmdValid : Bool
  cmdOp : BitVec 3
  cmdData : Nat
  rspReady : Bool
deriving DecidableEq, Repr

/-- A beat as it stands on `rsp_status`, `rsp_last`, `rsp_data` (R90, R100). -/
structure Beat where
  status : BitVec 2
  last : Bool
  data : Nat
deriving DecidableEq, Repr

/-- The output pins (R100). `rsp` is the offered beat; `none` is `rsp_valid = 0`, where the spec gives the other response pins
no value and the model gives them none (log 11). -/
structure PortOut where
  cmdReady : Bool
  rsp : Option Beat
  faultO : Bool
  busyO : Bool
deriving DecidableEq, Repr

/-- A response being delivered: edges still to wait before the first beat is offered (70_reset_and_hazards.md R241), the beat
on offer, the beats after it. A response in progress has at least one beat (R90). -/
structure Delivery (w : Nat) where
  wait : Nat
  status : Status
  beat : BitVec w
  later : List (BitVec w)
deriving DecidableEq, Repr

/-- The block with its ports: the transaction-level state, and the response in progress if there is one. -/
structure Port where
  core : State
  delivery : Option (Delivery core.cfg.dataBits)
deriving DecidableEq, Repr

/-- `L_cmd` of a command (70_reset_and_hazards.md R241). -/
def latencyOf (B : Block) : Instr → Nat
  | .size => B.latency.size
  | .coef => B.latency.coef
  | .vsym => B.latency.vsym
  | .new => B.latency.new
  | .feed _ => B.latency.feed
  | .hist => B.latency.hist
  | .stat => B.latency.stat
  | .reserved7 => B.latency.reserved7

/-- The delivery of a response, its first beat `wait` edges away. -/
def Delivery.begin {w : Nat} (wait : Nat) (r : Response w) : Option (Delivery w) :=
  match r.beats with
  | [] => none
  | b :: bs => some ⟨wait, r.status, b, bs⟩

/-- One edge of a delivery: wait, hold the beat until the host takes it, go to the next beat, or end (R101, R102). The next
beat is on offer right after the edge that takes the one before it, without a gap: the spec fixes the latency of the first
beat only (R241) and says no more of the others than their order (R103). DESIGN CHOICE, log 22. -/
def Delivery.edge {w : Nat} (d : Delivery w) (rspReady : Bool) : Option (Delivery w) :=
  match d.wait with
  | k + 1 => some { d with wait := k }
  | 0 =>
    if rspReady then
      match d.later with
      | [] => none
      | b :: bs => some { d with beat := b, later := bs }
    else some d

/-- The beat on offer: none while the latency runs. -/
def Delivery.offered {w : Nat} (d : Delivery w) : Option Beat :=
  if d.wait = 0 then some ⟨d.status.code, d.later.isEmpty, d.beat.toNat⟩ else none

/-- The output pins (R100, R102): `cmd_ready` is low and `busy_o` high while a response is in progress. They do not depend on
`rst`: `cmd_ready` is 1 from the reset edge on, while `rst` is still held too, where 70_reset_and_hazards.md R220 gives it a
value only from the first edge with `rst = 0`. DESIGN CHOICE, log 23. -/
def Port.out (p : Port) : PortOut where
  cmdReady := p.delivery.isNone
  rsp := p.delivery.bind Delivery.offered
  faultO := p.core.inFaultState
  busyO := p.delivery.isSome

/-- The command on the pins (R81: `op` and `data` travel on separate signals). -/
def Port.offeredCommand (p : Port) (i : PortIn) : Instr :=
  decodeFields p.core.cfg i.cmdOp (BitVec.ofNat p.core.cfg.dataBits i.cmdData)

/-- Accepting a command: it is executed, and its response begins. -/
def Port.accept (p : Port) (c : Instr) : Port :=
  match exec c p.core with
  | .next t => ⟨t, t.rsp.bind (Delivery.begin (latencyOf t.cfg c))⟩
  | .fault _ => p
  | .refused _ => p

/-- One rising edge: reset first (60_exceptions.md R203, 70_reset_and_hazards.md R220), else the response in progress goes on,
else a valid command is accepted (R101, R102). -/
def Port.edge (p : Port) (i : PortIn) : Port :=
  if i.rst then ⟨p.core.hardReset, none⟩
  else
    match p.delivery with
    | some d => ⟨p.core, d.edge i.rspReady⟩
    | none => if i.cmdValid then p.accept (p.offeredCommand i) else p

/-- The beat the host takes at an edge: `rsp_valid` and `rsp_ready` both 1 and `rst` 0 (R101). -/
def Port.taken (p : Port) (i : PortIn) : List Beat :=
  if i.rspReady && !i.rst then p.out.rsp.toList else []

/-- A sequence of edges: the port at the end and the beats taken, in order. -/
def Port.run (p : Port) : List PortIn → Port × List Beat
  | [] => (p, [])
  | i :: rest =>
    let r := Port.run (p.edge i) rest
    (r.1, p.taken i ++ r.2)

/-- A response as the host sees it, beat by beat: the same status on each, `last` on the final one only (R90). -/
def beatsOf {w : Nat} (status : Status) : List (BitVec w) → List Beat
  | [] => []
  | b :: bs => ⟨status.code, bs.isEmpty, b.toNat⟩ :: beatsOf status bs

end Sys2Proof.Machine
end

