-- ==== Sys2Proof/Machine/Structures.lean ====
section
/-! DEFINITION. Structures: the other machines the spec describes as equal to FEED's convolution: two ranges (41_feed.md
R137), parallel terms with one adder chain (R148), sequential multiply-accumulate (R147), the tapped delay line (R146), and
the time-domain form (R136). The meaning of FEED does not use them; statements compare them with it. -/

namespace Sys2Proof.Machine

/-! ### Two contiguous ranges (R137) -/

/-- First loop: `history[idx..N]` paired with `coef[0..N-idx]`. -/
def RingFilter.firstRange {T C : Type} {n : Nat} (ops : SampleOps T C) (coef : Vector C n)
    (f : RingFilter T n) : T :=
  (List.finRange (n - f.cursor.val)).foldl
    (fun acc i => ops.add acc
      (ops.scale (f.history.get ⟨f.cursor.val + i.val, by omega⟩) (coef.get ⟨i.val, by omega⟩)))
    ops.zero

/-- Second loop, going on from the first one's accumulator: `history[0..idx]` paired with `coef[N-idx..N]`. -/
def RingFilter.twoRangeOutput {T C : Type} {n : Nat} (ops : SampleOps T C) (coef : Vector C n)
    (f : RingFilter T n) : T :=
  (List.finRange f.cursor.val).foldl
    (fun acc i => ops.add acc
      (ops.scale (f.history.get ⟨i.val, by omega⟩) (coef.get ⟨n - f.cursor.val + i.val, by omega⟩)))
    (f.firstRange ops coef)

/-! ### Parallel terms, one chain of adders (R148) -/

/-- All `t[j]` at once. -/
def RingFilter.terms {T C : Type} {n : Nat} (ops : SampleOps T C) (coef : Vector C n)
    (f : RingFilter T n) : List T :=
  (List.finRange n).map (f.term ops coef)

/-- The chain of adders, `zero` entering the first. -/
def RingFilter.chainOutput {T C : Type} {n : Nat} (ops : SampleOps T C) (coef : Vector C n)
    (f : RingFilter T n) : T :=
  (f.terms ops coef).foldl ops.add ops.zero

/-! ### Sequential multiply-accumulate (R147) -/

/-- The registers of the sequential implementation while a FEED is in progress (10_state.md R36). -/
structure SequentialMac (T : Type) (n : Nat) where
  filter : RingFilter T n
  idx : Fin n
  acc : T
  /-- tap index, in `[0, N]` -/
  j : Nat
deriving DecidableEq, Repr

/-- Accepting `FEED(x)`: store, advance, `idx := cursor ; acc := zero ; j := 0`. -/
def RingFilter.acceptFeed {T C : Type} {n : Nat} (ops : SampleOps T C) (f : RingFilter T n) (x : T) :
    SequentialMac T n :=
  let f' := (f.store x).advance
  { filter := f', idx := f'.cursor, acc := ops.zero, j := 0 }

/-- One micro-step: a multiply-accumulate while `j < N`; at `j = N` the accumulator is the response and nothing changes. -/
def SequentialMac.microStep {T C : Type} {n : Nat} (ops : SampleOps T C) (coef : Vector C n)
    (m : SequentialMac T n) : SequentialMac T n :=
  if h : m.j < n then
    { m with
      acc := ops.add m.acc (ops.scale (m.filter.history.get (circular m.idx ⟨m.j, h⟩)) (coef.get ⟨m.j, h⟩))
      j := m.j + 1 }
  else m

/-- `k` micro-steps. -/
def SequentialMac.run {T C : Type} {n : Nat} (ops : SampleOps T C) (coef : Vector C n) :
    Nat → SequentialMac T n → SequentialMac T n
  | 0, m => m
  | k + 1, m => SequentialMac.run ops coef k (m.microStep ops coef)

/-! ### Tapped delay line (R146) -/

/-- A shift register of stages, oldest first: one tap for each stage. -/
structure DelayLine (T : Type) where
  stages : List T
deriving DecidableEq, Repr

/-- All `N` stages zero, as at reset. -/
def DelayLine.fresh {T : Type} (n : Nat) (zero : T) : DelayLine T := ⟨List.replicate n zero⟩

/-- Drop the oldest, append the newest. -/
def DelayLine.shift {T : Type} (d : DelayLine T) (x : T) : DelayLine T := ⟨d.stages.drop 1 ++ [x]⟩

/-- `coef[j]` on stage `j`, the adder chain from stage 0 on, starting from `zero`. -/
def DelayLine.output {T C : Type} (ops : SampleOps T C) (coef : List C) (d : DelayLine T) : T :=
  (d.stages.zip coef).foldl (fun acc p => ops.add acc (ops.scale p.1 p.2)) ops.zero

/-- The delay line after a sequence of feeds, and the responses in order. -/
def DelayLine.feedAll {T C : Type} (ops : SampleOps T C) (coef : List C) :
    DelayLine T → List T → DelayLine T × List T
  | d, [] => (d, [])
  | d, x :: xs =>
    let d' := d.shift x
    let rest := DelayLine.feedAll ops coef d' xs
    (rest.1, d'.output ops coef :: rest.2)

/-! ### Time-domain form (R136) and the contents of the history (10_state.md R24) -/

/-- `x[m]` of the samples fed since reset, `zero` for `m < 0` (R136). -/
def pastSample {T : Type} (zero : T) (xs : List T) (m : Int) : T :=
  if m < 0 then zero else xs.getD m.toNat zero

/-- `y[k] = fold_{j=0}^{N-1} scale(x[k - (N-1) + j], coef[j])` (R136). -/
def timeDomainOutput {T C : Type} {n : Nat} (ops : SampleOps T C) (coef : Vector C n) (xs : List T) (k : Nat) : T :=
  (List.finRange n).foldl
    (fun acc j => ops.add acc
      (ops.scale (pastSample ops.zero xs ((k : Int) - ((n : Int) - 1) + (j.val : Int))) (coef.get j)))
    ops.zero

end Sys2Proof.Machine
end

