-- ==== Sys2Proof/Safety.lean ====
section
/-! DEFINITION. Safety: what a state of the block must look like, in the terms the statements use. The rest of what
10_state.md asks (`cursor < N`, `N` slots, `N` coefficients) holds by type. -/

namespace Sys2Proof

/-- Symmetry of the table in index terms (40_coefficient_table.md R115): every mirrored pair `i`, `N-1-i` with `i < N/2` is
equal. `palindromic` decides it. -/
def Block.Palindromic (B : Block) : Prop :=
  ∀ i j : Fin B.n, i.val < B.n / 2 → j.val = B.n - 1 - i.val →
    Machine.formatEq B.fmt (B.table.get i) (B.table.get j) = true

end Sys2Proof

namespace Sys2Proof.Machine

/-- A response a state may show (30_encoding.md R90, R91; 60_exceptions.md R200, R201): OK carries one beat or `N`; FAULT and
REFUSED carry one beat, the value of a fault register that is not 0. -/
def Response.agrees (s : State) (r : Response s.cfg.dataBits) : Prop :=
  match r.status with
  | .ok => r.beats.length = 1 ∨ r.beats.length = s.cfg.n
  | .fault => s.fault ≠ 0 ∧ r.beats = [causeBeat s.cfg s.fault]
  | .refused => s.fault ≠ 0 ∧ r.beats = [causeBeat s.cfg s.fault]

/-- The machine's invariant: `fault` holds 0, 1 or 3 (10_state.md R30); it holds 1 only over a table that is not palindromic
(60_exceptions.md R191); the response shown, if any, agrees with it. -/
def State.Inv (s : State) : Prop :=
  (s.fault = 0 ∨ s.fault = 1 ∨ s.fault = 3) ∧
  (s.fault = 1 → palindromic s.cfg = false) ∧
  ∀ r, s.rsp = some r → r.agrees s

/-- A run of commands at transaction level, whatever the host's queue holds (20_memory.md R60): the state at the end and the
responses in order. Only next states go on; there is no other outcome. -/
def runCommands (s : State) : List Instr → State × List (Option (Status × List Nat))
  | [] => (s, [])
  | i :: is =>
    match exec i s with
    | .next t =>
      let rest := runCommands t is
      (rest.1, t.rsp.map (fun r => (r.status, r.beats.map BitVec.toNat)) :: rest.2)
    | .fault _ => (s, [])
    | .refused _ => (s, [])

end Sys2Proof.Machine
end

