-- ==== Sys2Proof/Certificates/Slice0/Obligations.lean ====
section
/-! DEFINITION. Obligations: the statements of this model, from the numbered rules of spec/. -/

open Sys2Proof Sys2Proof.Machine

/-! ### Encoding -/

/-- One word for each op code, written out from 30_encoding.md R80 and R81 in the 35-bit layout: `{op, data}`. That a number of
36 bits decodes to nothing is the model's choice (log 9). -/
def Obligations.TableWordsDecodeToTheirCommands : Prop :=
  decodeTableWord 40 0x000000000 = some .size ∧
  decodeTableWord 40 0x100000000 = some .coef ∧
  decodeTableWord 40 0x200000000 = some .vsym ∧
  decodeTableWord 40 0x300000000 = some .new ∧
  decodeTableWord 40 0x442C80000 = some (.feed 0x42C80000) ∧
  decodeTableWord 40 0x500000000 = some .hist ∧
  decodeTableWord 40 0x600000123 = some .stat ∧
  decodeTableWord 40 0x700000123 = some .reserved7 ∧
  decodeTableWord 40 0x800000000 = none

/-- In every block, decoding the word of a well-formed command gives the command back, from the packed word and from the
number it spells (30_encoding.md R81 to R83, R86). -/
def Obligations.DecodeOfEncodeIsTheCommand : Prop :=
  ∀ (B : Block) (i : Instr), i.wf B = true →
    decode B (encode B i) = i ∧ decodeWord B (encode B i).toNat = .ok i

/-- 30_encoding.md R82: the data bits a command does not use have no effect; FEED's operand is `data[W_T-1:0]`. Also R86:
decoding is total and its result is well formed. -/
def Obligations.UnusedDataBitsHaveNoEffect : Prop :=
  (∀ (B : Block) (w w' : BitVec B.cmdBits), opField B w' = opField B w →
    (opField B w ≠ 4 ∨
      (dataField B w').extractLsb' 0 B.fmt.wT = (dataField B w).extractLsb' 0 B.fmt.wT) →
    decode B w' = decode B w ∧ (decode B w).op = opField B w ∧ (decode B w).wf B = true) ∧
  (∀ (B : Block) (w : BitVec B.cmdBits), opField B w = 4 →
    decode B w = .feed ((dataField B w).extractLsb' 0 B.fmt.wT).toNat)

/-! ### The step -/

/-- What a step does around `exec`: it takes the host's oldest event; a command word is decoded and run on the rest; with no event
the block waits. (A reset event: the next statement.) The queue of events is the model's choice (log 3). -/
def Obligations.StepRunsTheDecodedCommand : Prop :=
  (∀ (s : State) (w : BitVec s.cfg.cmdBits) (rest : List (HostEvent s.cfg.cmdBits)),
    s.host = .command w :: rest → step s = exec (decode s.cfg w) { s with host := rest }) ∧
  (∀ s : State, s.host = [] → step s = .next { s with rsp := none }) ∧
  (∀ (s : State) (k w : Nat),
    step (s.withFetchWord k w) =
      exec (decodeFields s.cfg (BitVec.ofNat 3 (w / 2 ^ 32)) (BitVec.ofNat s.cfg.dataBits (w % 2 ^ 32))) s)

/-- 10_state.md R37, the table of reset values, reset and NEW columns: every slot `zero`, cursor 0; `fault` is 0 after reset and
unchanged by NEW; the table `coef` is configuration and stays. -/
def Obligations.ResetAndNewLeaveTheResetValues : Prop :=
  (∀ (s : State) (rest : List (HostEvent s.cfg.cmdBits)), s.host = .reset :: rest →
    step s = .next { s with
      filter := ⟨Vector.replicate s.cfg.n s.cfg.fmt.zero, ⟨0, s.cfg.n_pos⟩⟩
      fault := 0
      host := rest
      rsp := none }) ∧
  (∀ s : State, s.fault = 0 →
    ∃ r, exec .new s = .next { s with
      filter := ⟨Vector.replicate s.cfg.n s.cfg.fmt.zero, ⟨0, s.cfg.n_pos⟩⟩
      rsp := some r })

/-- The state after reset of a block of any configuration, and that `State.reset` is one of them. That it is the scenario's is
the model's choice (log 2); the empty queue is the model's choice (log 4). -/
def Obligations.ResetStateHoldsTheResetValues : Prop :=
  (∀ B : Block,
    (State.resetOf B).cfg = B ∧ (State.resetOf B).fault = 0 ∧ (State.resetOf B).filter.cursor.val = 0 ∧
    (∀ k, (State.resetOf B).filter.history.get k = B.fmt.zero) ∧
    (State.resetOf B).host = [] ∧ (State.resetOf B).rsp = none) ∧
  State.reset = State.resetOf Block.scenario

/-! ### The commands -/

/-- 40_coefficient_table.md R110: op 0 is SIZE, whatever the data; SIZE responds OK with `N`, which is at least 1 and fits the data field. -/
def Obligations.SizeRespondsWithTheTapCount : Prop :=
  (∀ (B : Block) (data : BitVec B.dataBits), decodeFields B 0 data = .size) ∧
  ∀ s : State, s.fault = 0 →
    exec .size s = .next { s with rsp := some ⟨.ok, [BitVec.ofNat s.cfg.dataBits s.cfg.n]⟩ } ∧
    (BitVec.ofNat s.cfg.dataBits s.cfg.n).toNat = s.cfg.n ∧ 1 ≤ s.cfg.n

/-- 40_coefficient_table.md R112: op 1 is COEF, whatever the data; COEF responds OK with `N` beats, the table in increasing
index order, zero-extended. The beats depend on the configuration alone. -/
def Obligations.CoefRespondsWithTheTable : Prop :=
  (∀ (B : Block) (data : BitVec B.dataBits), decodeFields B 1 data = .coef) ∧
  ∀ s : State, s.fault = 0 →
    ∃ beats : List (BitVec s.cfg.dataBits),
      exec .coef s = .next { s with rsp := some ⟨.ok, beats⟩ } ∧
      beats.map BitVec.toNat = s.cfg.coef.map BitVec.toNat ∧ beats.length = s.cfg.n

/-- 40_coefficient_table.md R114: op 2 is VSYM, whatever the data; VSYM passes exactly on a palindromic table; else it writes 1
to `fault`, responds FAULT with the code 1, and changes nothing else. -/
def Obligations.VsymPassesExactlyOnPalindromes : Prop :=
  (∀ (B : Block) (data : BitVec B.dataBits), decodeFields B 2 data = .vsym) ∧
  ∀ s : State, s.fault = 0 →
    (s.cfg.Palindromic → exec .vsym s = .next { s with rsp := some ⟨.ok, [0]⟩ }) ∧
    (¬ s.cfg.Palindromic →
      exec .vsym s = .next { s with fault := 1, rsp := some ⟨.fault, [BitVec.ofNat s.cfg.dataBits 1]⟩ })

/-- 40_coefficient_table.md R116: with `N = 2m+1` the middle element is compared with nothing, so changing it changes no
verdict; with `N = 1` the table always passes. -/
def Obligations.MiddleCoefficientIsNotCompared : Prop :=
  (∀ (B : Block) (m : Nat) (c : BitVec B.fmt.wC)
    (h : Config.wf ⟨B.n, B.fmt, B.coef.set m c, B.latency⟩ = true), B.n = 2 * m + 1 →
    palindromic ⟨⟨B.n, B.fmt, B.coef.set m c, B.latency⟩, h⟩ = palindromic B) ∧
  (∀ B : Block, B.n = 1 → palindromic B = true)

/-- 43_control.md R180: op 3 is NEW, whatever the data; NEW writes `zero` to every slot and 0 to the cursor, responds OK with
0, and writes nothing else. -/
def Obligations.NewZeroesTheFilter : Prop :=
  (∀ (B : Block) (data : BitVec B.dataBits), decodeFields B 3 data = .new) ∧
  ∀ s : State, s.fault = 0 →
    ∃ f : RingFilter s.cfg.Sample s.cfg.n,
      exec .new s = .next { s with filter := f, rsp := some ⟨.ok, [0]⟩ } ∧
      f.cursor.val = 0 ∧ ∀ k, f.history.get k = s.cfg.fmt.zero

/-- 41_feed.md R130 to R132: op 4 is FEED of the low `W_T` data bits; FEED stores the sample in the slot at the pre-advance cursor and in no other, advances the cursor
modulo `N`, and responds OK with the last accumulator of the sequence that starts at `zero` and takes one `scale` and one
`add` for each `j = 0, ..., N-1` in order, reading `history[(idx + j) mod N]` with `idx` the post-advance cursor. -/
def Obligations.FeedStoresAdvancesAndConvolves : Prop :=
  (∀ (B : Block) (data : BitVec B.dataBits), decodeFields B 4 data = .feed (data.toNat % 2 ^ B.fmt.wT)) ∧
  ∀ (s : State) (x : Nat), s.fault = 0 →
    ∃ (f : RingFilter s.cfg.Sample s.cfg.n) (acc : Nat → s.cfg.Sample),
      exec (.feed x) s = .next { s with
        filter := f, rsp := some ⟨.ok, [(acc s.cfg.n).setWidth s.cfg.dataBits]⟩ } ∧
      ((acc s.cfg.n).setWidth s.cfg.dataBits).toNat = (acc s.cfg.n).toNat ∧
      f.history.get s.filter.cursor = BitVec.ofNat s.cfg.fmt.wT x ∧
      (∀ k, k ≠ s.filter.cursor → f.history.get k = s.filter.history.get k) ∧
      f.cursor.val = (s.filter.cursor.val + 1) % s.cfg.n ∧
      acc 0 = s.cfg.fmt.zero ∧
      ∀ j i : Fin s.cfg.n, i.val = (f.cursor.val + j.val) % s.cfg.n →
        acc (j.val + 1) =
          formatAdd s.cfg.fmt (acc j.val) (formatScale s.cfg.fmt (f.history.get i) (s.cfg.table.get j))

/-- 42_history.md R172: op 5 is HIST, whatever the data; HIST responds OK with `N` beats, beat `k` the slot
`(cursor + k) mod N`, zero-extended and otherwise bit for bit, and writes nothing. -/
def Obligations.HistRespondsOldestFirst : Prop :=
  (∀ (B : Block) (data : BitVec B.dataBits), decodeFields B 5 data = .hist) ∧
  ∀ s : State, s.fault = 0 →
    ∃ beats : List (BitVec s.cfg.dataBits),
      exec .hist s = .next { s with rsp := some ⟨.ok, beats⟩ } ∧ beats.length = s.cfg.n ∧
      ∀ k i : Fin s.cfg.n, i.val = (s.filter.cursor.val + k.val) % s.cfg.n →
        beats[k.val]? = some ((s.filter.history.get i).setWidth s.cfg.dataBits) ∧
        ((s.filter.history.get i).setWidth s.cfg.dataBits).toNat = (s.filter.history.get i).toNat

/-- 43_control.md R184: op 6 is STAT, whatever the data; STAT responds OK in every state, whatever `fault` holds, with the word whose bits `[2:0]` are `fault`,
`[7:3]` zero, `[IDX_BITS+7:8]` the cursor and the rest zero; as a number, `cursor * 256 + fault`. It writes nothing. -/
def Obligations.StatShowsCursorAndFault : Prop :=
  (∀ (B : Block) (data : BitVec B.dataBits), decodeFields B 6 data = .stat) ∧
  ∀ s : State, ∃ word : BitVec s.cfg.dataBits,
    exec .stat s = .next { s with rsp := some ⟨.ok, [word]⟩ } ∧
    word.toNat = s.filter.cursor.val * 2 ^ 8 + s.fault.toNat

/-- 60_exceptions.md R194: op 7, whatever the data, writes 3 to `fault` and responds FAULT with 3; history and cursor are
unchanged. -/
def Obligations.ReservedCodeRaisesIllegalCommand : Prop :=
  (∀ (B : Block) (data : BitVec B.dataBits), decodeFields B 7 data = .reserved7) ∧
  ∀ s : State, s.fault = 0 →
    exec .reserved7 s =
      .next { s with fault := 3, rsp := some ⟨.fault, [BitVec.ofNat s.cfg.dataBits 3]⟩ }

/-- 60_exceptions.md R201: in the fault state every command but STAT is refused with the value of `fault` and changes nothing;
STAT is executed normally; otherwise the illegal code raises. -/
def Obligations.FaultStateRefusesAllButStat : Prop :=
  (∀ (i : Instr) (s : State), s.fault ≠ 0 → i ≠ .stat →
    exec i s = .next { s with rsp := some ⟨.refused, [BitVec.ofNat s.cfg.dataBits s.fault.toNat]⟩ }) ∧
  (∀ s : State, s.fault ≠ 0 → ∃ word : BitVec s.cfg.dataBits,
    exec .stat s = .next { s with rsp := some ⟨.ok, [word]⟩ } ∧
    word.toNat = s.filter.cursor.val * 2 ^ 8 + s.fault.toNat) ∧
  (∀ s : State, s.fault = 0 →
    exec .reserved7 s =
      .next { s with fault := 3, rsp := some ⟨.fault, [BitVec.ofNat s.cfg.dataBits 3]⟩ })

/-- 41_feed.md R139: FEED completes with an OK response for every sample in every state with `fault = 0`. And every command and
every step has a next state: the machine never stops. That a raised fault is a next state is the model's reading of R200 and
R201 (log 5); that a step without a command is one is the model's (log 3). -/
def Obligations.FeedIsTotalAndNoCommandStops : Prop :=
  (∀ (s : State) (x : Nat), s.fault = 0 →
    ∃ f beat, exec (.feed x) s = .next { s with filter := f, rsp := some ⟨.ok, [beat]⟩ }) ∧
  (∀ (i : Instr) (s : State), ∃ t, exec i s = .next t) ∧
  (∀ s : State, ∃ t, step s = .next t)

/-- 40_coefficient_table.md R111: SIZE's number is the number of history slots and of the beats of COEF and of HIST. -/
def Obligations.SizeCountsTheBeatsOfCoefAndHist : Prop :=
  ∀ s : State, s.fault = 0 →
    ∃ size coef hist : List (BitVec s.cfg.dataBits),
      exec .size s = .next { s with rsp := some ⟨.ok, size⟩ } ∧
      exec .coef s = .next { s with rsp := some ⟨.ok, coef⟩ } ∧
      exec .hist s = .next { s with rsp := some ⟨.ok, hist⟩ } ∧
      size.map BitVec.toNat = [coef.length] ∧ size.map BitVec.toNat = [hist.length] ∧
      size.map BitVec.toNat = [s.filter.history.toList.length]

/-! ### Frames -/

/-- What each command leaves unchanged (10_state.md R23, 60_exceptions.md R191): configuration and queue always; filter and
`fault` under SIZE, COEF, HIST, STAT; the filter under VSYM and op 7; `fault` under NEW; `fault` and every slot but the one at
the pre-advance cursor under FEED. -/
def Obligations.CommandsChangeOnlyWhatTheyMay : Prop :=
  ∀ (i : Instr) (s t : State), exec i s = .next t →
    ∃ (f : RingFilter s.cfg.Sample s.cfg.n) (c : BitVec 3) (r : Option (Response s.cfg.dataBits)),
      t = { s with filter := f, fault := c, rsp := r } ∧
      match i with
      | .size => f = s.filter ∧ c = s.fault
      | .coef => f = s.filter ∧ c = s.fault
      | .hist => f = s.filter ∧ c = s.fault
      | .stat => f = s.filter ∧ c = s.fault
      | .vsym => f = s.filter
      | .reserved7 => f = s.filter
      | .new => c = s.fault
      | .feed _ => c = s.fault ∧ ∀ k, k ≠ s.filter.cursor → f.history.get k = s.filter.history.get k

/-- 60_exceptions.md R191: which commands change `fault`, when, and to what: VSYM to 1, exactly on a table that is not
palindromic, and op 7 to 3, always; each where `fault` was 0; no other command ever. -/
def Obligations.OnlyVsymAndReservedCodeRaise : Prop :=
  ∀ (i : Instr) (s t : State), exec i s = .next t →
    (t.fault ≠ s.fault ↔
      s.fault = 0 ∧ ((i = .vsym ∧ ¬ s.cfg.Palindromic) ∨ i = .reserved7)) ∧
    (t.fault ≠ s.fault → t.fault = if i = .vsym then 1 else 3)

/-- 70_reset_and_hazards.md R235: SIZE, COEF, HIST and STAT change no later response: after one of them, every command does
exactly what it would have done before. -/
def Obligations.ReadCommandsChangeNoLaterResponse : Prop :=
  ∀ (i : Instr) (s t : State), i = .size ∨ i = .coef ∨ i = .hist ∨ i = .stat →
    exec i s = .next t → ∀ j : Instr, exec j t = exec j s

/-! ### Whole-machine rules -/

/-- Every step keeps the invariant, from every state that has it, whatever event the host sends: `fault` is 0, 1 or 3; it is 1
only over a table that is not palindromic; the response shown agrees with it (10_state.md R30, 30_encoding.md R90,
60_exceptions.md R191). -/
def Obligations.EveryStepKeepsTheInvariant : Prop :=
  ∀ s t : State, s.Inv → step s = .next t → t.Inv

/-- The invariant holds after reset, in every configuration. -/
def Obligations.ResetSatisfiesTheInvariant : Prop :=
  (∀ B : Block, (State.resetOf B).Inv) ∧ State.reset.Inv

/-- No step changes the configuration: tap count, table, format (00_scope.md R8, 10_state.md R25, R35, 70_reset R223). -/
def Obligations.NoStepChangesTheConfiguration : Prop :=
  ∀ s t : State, step s = .next t → t.cfg = s.cfg

/-- 60_exceptions.md R202: without a reset the fault state is not left, the first cause is kept, and the filter stands still. -/
def Obligations.OnlyResetLeavesTheFaultState : Prop :=
  ∀ s t : State, s.fault ≠ 0 → (∀ rest, s.host ≠ .reset :: rest) → step s = .next t →
    ∃ r, t = { s with host := s.host.tail, rsp := r }

/-- 43_control.md R181: with `fault = 0`, a sequence of commands after NEW gives the responses it gives right after reset. -/
def Obligations.NewIsAsGoodAsReset : Prop :=
  ∀ (s t : State) (cs : List Instr), s.fault = 0 → exec .new s = .next t →
    (runCommands t cs).2 = (runCommands (State.resetOf s.cfg) cs).2

/-- 10_state.md R42: two states of one block with the same window and the same `fault` give the same responses to every command
sequence without STAT, whatever their cursors. -/
def Obligations.ResponsesDependOnTheWindowOnly : Prop :=
  ∀ (s : State) (f : RingFilter s.cfg.Sample s.cfg.n) (cs : List Instr),
    f.window = s.filter.window → .stat ∉ cs →
    (runCommands { s with filter := f } cs).2 = (runCommands s cs).2

/-- 42_history.md R173 on the machine: from reset, any feeds and then HIST give the last `N` samples, oldest first, zeros standing
for what was not fed. -/
def Obligations.HistReflectsTheLastFeeds : Prop :=
  ∀ (B : Block) (xs : List Nat), (∀ x ∈ xs, x < 2 ^ B.fmt.wT) →
    (runCommands (State.resetOf B) (xs.map Instr.feed ++ [.hist])).2.getLast? =
      some (some (.ok, (List.replicate B.n B.fmt.zero.toNat ++ xs).drop xs.length))

/-! ### The ring buffer and the convolution, for every sample type, operations, tap count and table -/

/-- 41_feed.md R135: after a feed the window is the old window less its oldest sample, with the new sample last, and the
response pairs `coef[j]` with the window's sample `j`, oldest first. -/
def Obligations.FeedPairsCoefficientsWithTheWindow : Prop :=
  ∀ (T C : Type) (n : Nat) (ops : SampleOps T C) (coef : Vector C n) (f : RingFilter T n) (x : T),
    (f.feed ops coef x).1.window = f.window.drop 1 ++ [x] ∧
    (f.feed ops coef x).2 =
      ((f.feed ops coef x).1.window.zip coef.toList).foldl
        (fun acc p => ops.add acc (ops.scale p.1 p.2)) ops.zero

/-- 42_history.md R171: the window is the two contiguous views, one after the other; the old view has `N - cursor` samples and
is never empty, the new view has `cursor` samples. -/
def Obligations.WindowIsTheTwoViews : Prop :=
  ∀ (T : Type) (n : Nat) (f : RingFilter T n),
    f.window = f.viewOld ++ f.viewNew ∧
    f.viewOld.length = n - f.cursor.val ∧ f.viewNew.length = f.cursor.val ∧ f.viewOld ≠ []

/-- 41_feed.md R137: the two-range loops compute the same fold, whatever the operations are. -/
def Obligations.TwoRangeFormComputesTheSameFold : Prop :=
  ∀ (T C : Type) (n : Nat) (ops : SampleOps T C) (coef : Vector C n) (f : RingFilter T n),
    f.twoRangeOutput ops coef = f.output ops coef

/-- 41_feed.md R148: all terms at once and then one chain of adders, `zero` entering the first, is the same fold. -/
def Obligations.AdderChainComputesTheSameFold : Prop :=
  ∀ (T C : Type) (n : Nat) (ops : SampleOps T C) (coef : Vector C n) (f : RingFilter T n),
    f.chainOutput ops coef = f.output ops coef

/-- 41_feed.md R140: with one tap the filter forgets: the slot is the sample, the cursor stays 0, and the response is
`add(zero, scale(x, coef[0]))`. -/
def Obligations.OneTapFilterHasNoMemory : Prop :=
  ∀ (T C : Type) (ops : SampleOps T C) (coef : Vector C 1) (f : RingFilter T 1) (x : T),
    f.feed ops coef x = (⟨#v[x], 0⟩, ops.add ops.zero (ops.scale x (coef.get 0)))

/-- 41_feed.md R147: the sequential implementation's accumulator after `N` micro-steps is FEED's response, its filter is FEED's,
and `j` has reached `N`. -/
def Obligations.SequentialMacGivesTheFeedResponse : Prop :=
  ∀ (T C : Type) (n : Nat) (ops : SampleOps T C) (coef : Vector C n) (f : RingFilter T n) (x : T),
    let m := SequentialMac.run ops coef n (f.acceptFeed ops x)
    m.j = n ∧ m.filter = (f.feed ops coef x).1 ∧ m.acc = (f.feed ops coef x).2

/-- 41_feed.md R146: the tapped delay line and the ring buffer give the same responses to every sequence of feeds from reset, and
the stages are the window. -/
def Obligations.DelayLineEqualsTheRingBuffer : Prop :=
  ∀ (T C : Type) (n : Nat) (hn : 0 < n) (ops : SampleOps T C) (coef : Vector C n) (xs : List T),
    ((DelayLine.fresh n ops.zero).feedAll ops coef.toList xs).2 =
      ((RingFilter.fresh hn ops.zero).feedAll ops coef xs).2 ∧
    ((DelayLine.fresh n ops.zero).feedAll ops coef.toList xs).1.stages =
      ((RingFilter.fresh hn ops.zero).feedAll ops coef xs).1.window

/-- 10_state.md R24, R28: after `k` feeds from reset the cursor is `k mod N`; slot `i` holds the newest sample fed at an index
congruent to `i`, or `zero` if there is none. -/
def Obligations.HistoryHoldsTheNewestSamples : Prop :=
  ∀ (T C : Type) (n : Nat) (hn : 0 < n) (ops : SampleOps T C) (coef : Vector C n) (xs : List T),
    ((RingFilter.fresh hn ops.zero).feedAll ops coef xs).1.cursor.val = xs.length % n ∧
    (∀ (i : Fin n) (m : Nat) (hm : m < xs.length), m % n = i.val → xs.length ≤ m + n →
      ((RingFilter.fresh hn ops.zero).feedAll ops coef xs).1.history.get i = xs[m]) ∧
    (∀ i : Fin n, xs.length ≤ i.val →
      ((RingFilter.fresh hn ops.zero).feedAll ops coef xs).1.history.get i = ops.zero)

/-- 41_feed.md R136: response `k` is the fold of `scale(x[k - (N-1) + j], coef[j])`, with `zero` for samples before the first. -/
def Obligations.ResponsesHaveTheTimeDomainForm : Prop :=
  ∀ (T C : Type) (n : Nat) (hn : 0 < n) (ops : SampleOps T C) (coef : Vector C n) (xs : List T),
    ((RingFilter.fresh hn ops.zero).feedAll ops coef xs).2 =
      (List.range xs.length).map (timeDomainOutput ops coef xs)

/-- 41_feed.md R160: in `EXACT`, `a` and then `N` zeros give the table scaled by `a` in reverse index order, and then 0. -/
def Obligations.ImpulseResponseIsTheTableReversed : Prop :=
  ∀ (n : Nat) (hn : 0 < n) (coef : Vector ℚ n) (a : ℚ),
    ((RingFilter.fresh hn 0).feedAll SampleOps.exact coef (a :: List.replicate n 0)).2 =
      coef.toList.reverse.map (fun c => c * a) ++ [0]

/-- 41_feed.md R161: superposition, for every `SampleOps` with the stated laws; `EXACT` has them and `F32` has not. -/
def Obligations.SuperpositionHoldsForLinearOperations : Prop :=
  (∀ (T C : Type) (n : Nat) (hn : 0 < n) (ops : SampleOps T C) (coef : Vector C n) (xs ys : List T),
    ops.Linear → xs.length = ys.length →
    ((RingFilter.fresh hn ops.zero).feedAll ops coef (List.zipWith ops.add xs ys)).2 =
      List.zipWith ops.add ((RingFilter.fresh hn ops.zero).feedAll ops coef xs).2
        ((RingFilter.fresh hn ops.zero).feedAll ops coef ys).2) ∧
  SampleOps.exact.Linear ∧ ¬ (formatOps .f32).Linear

/-- 41_feed.md R162: the source's scenario, in `EXACT` and in `F32`. -/
def Obligations.SourceScenarioGivesTheSourceOutputs : Prop :=
  ((RingFilter.fresh (n := 4) (by decide) (0 : ℚ)).feedAll SampleOps.exact #v[1, 0, 2, 0]
    [100, 200, 300, 400, 0, 0, 0, 0]).2 = [0, 200, 400, 700, 1000, 300, 400, 0] ∧
  ((RingFilter.fresh (n := 4) (by decide) (0#32)).feedAll (formatOps .f32)
    (#v[0x3F800000#32, 0x00000000#32, 0x40000000#32, 0x00000000#32] : Vector (BitVec 32) 4)
    ([100, 200, 300, 400, 0, 0, 0, 0].map fun k => F32.ofDecimal false k 0)).2 =
    [0, 200, 400, 700, 1000, 300, 400, 0].map fun k => F32.ofDecimal false k 0

/-- 41_feed.md R158, 40_coefficient_table.md R115: the symmetry check in `EXACT` passes exactly on the tables that read the same
backwards. -/
def Obligations.ExactSymmetryIsEqualityWithTheReverse : Prop :=
  ∀ (n : Nat) (coef : Vector ℚ n),
    CoefOps.exact.palindromic coef = true ↔ coef.toList.reverse = coef.toList

/-- 41_feed.md R157: `zero`, `add` and `scale` of a pair work lane by lane; a `PAIR(T0)` filter is two `T0` filters on one
table fed in lock step: each lane of the responses is the response of a `T0` filter fed that lane of the samples. -/
def Obligations.PairLanesAreIndependentFilters : Prop :=
  (∀ (lane : Format) (a b a' b' : BitVec lane.wT) (c : BitVec lane.wC),
    (formatOps (.pair lane)).zero = pairOf lane.zero lane.zero ∧
    (formatOps (.pair lane)).add (pairOf a b) (pairOf a' b') = pairOf (formatAdd lane a a') (formatAdd lane b b') ∧
    (formatOps (.pair lane)).scale (pairOf a b) c = pairOf (formatScale lane a c) (formatScale lane b c)) ∧
  ∀ (lane : Format) (n : Nat) (hn : 0 < n) (coef : Vector (BitVec lane.wC) n) (xs : List (BitVec (lane.wT + lane.wT))),
    let outputs : List (BitVec (lane.wT + lane.wT)) :=
      ((RingFilter.fresh hn (Format.pair lane).zero).feedAll (formatOps (.pair lane)) coef xs).2
    outputs.map laneLow =
      ((RingFilter.fresh hn lane.zero).feedAll (formatOps lane) coef (xs.map laneLow)).2 ∧
    outputs.map laneHigh =
      ((RingFilter.fresh hn lane.zero).feedAll (formatOps lane) coef (xs.map laneHigh)).2

/-! ### Binary32 -/

/-- 41_feed.md R151, R155: the sum of two finite values is rounded to nearest, ties to even: below the overflow threshold the
result is finite, no finite pattern is nearer to the exact sum, and one of another value that is as near has an odd
significand; from the threshold on it is the infinity of the sum's sign. In units of `2^-149`. The spec marks these rules as
general knowledge (log 8). Zero sums and infinite operands: the next statement. -/
def Obligations.F32AddRoundsToNearestEven : Prop :=
  ∀ a b : BitVec 32, F32.isFinite a = true → F32.isFinite b = true →
    ((F32.units a + F32.units b).natAbs < (2 ^ 25 - 1) * 2 ^ 252 →
      F32.isFinite (F32.add a b) = true ∧
      ∀ x : BitVec 32, F32.isFinite x = true →
        (F32.units (F32.add a b) - (F32.units a + F32.units b)).natAbs ≤
          (F32.units x - (F32.units a + F32.units b)).natAbs ∧
        ((F32.units (F32.add a b) - (F32.units a + F32.units b)).natAbs =
            (F32.units x - (F32.units a + F32.units b)).natAbs →
          F32.units x ≠ F32.units (F32.add a b) →
          F32.frac (F32.add a b) % 2 = 0 ∧ F32.frac x % 2 = 1)) ∧
    ((2 ^ 25 - 1) * 2 ^ 252 ≤ (F32.units a + F32.units b).natAbs →
      F32.add a b = F32.infOf (decide (F32.units a + F32.units b < 0)))

/-- 41_feed.md R151: a zero sum of finite values is `-0` where both operands are `-0`, and `+0` otherwise (so for `x + (-x)`); an
infinity plus a finite value, on either side, or plus the same infinity, is that infinity. General knowledge (log 8). -/
def Obligations.F32AddZerosAndInfinities : Prop :=
  (∀ a b : BitVec 32, F32.isFinite a = true → F32.isFinite b = true → F32.units a + F32.units b = 0 →
    F32.add a b = if a = 0x80000000#32 ∧ b = 0x80000000#32 then 0x80000000#32 else 0x00000000#32) ∧
  (∀ a b : BitVec 32, F32.isInf a = true → F32.isFinite b = true → F32.add a b = a ∧ F32.add b a = a) ∧
  (∀ a : BitVec 32, F32.isInf a = true → F32.add a a = a)

/-- 41_feed.md R152, R155: the same for the product of two finite values, whose exact value is `units * units` in units of
`2^-298`; the sign is the exclusive-or of the operands' signs, of a zero too. General knowledge (log 8). Infinite operands: the
next statement. -/
def Obligations.F32ScaleRoundsToNearestEven : Prop :=
  ∀ h c : BitVec 32, F32.isFinite h = true → F32.isFinite c = true →
    F32.sign (F32.scale h c) = (F32.sign h ^^ F32.sign c) ∧
    ((F32.units h * F32.units c).natAbs < (2 ^ 25 - 1) * 2 ^ 252 * 2 ^ 149 →
      F32.isFinite (F32.scale h c) = true ∧
      ∀ x : BitVec 32, F32.isFinite x = true →
        (F32.units (F32.scale h c) * 2 ^ 149 - F32.units h * F32.units c).natAbs ≤
          (F32.units x * 2 ^ 149 - F32.units h * F32.units c).natAbs ∧
        ((F32.units (F32.scale h c) * 2 ^ 149 - F32.units h * F32.units c).natAbs =
            (F32.units x * 2 ^ 149 - F32.units h * F32.units c).natAbs →
          F32.units x ≠ F32.units (F32.scale h c) →
          F32.frac (F32.scale h c) % 2 = 0 ∧ F32.frac x % 2 = 1)) ∧
    ((2 ^ 25 - 1) * 2 ^ 252 * 2 ^ 149 ≤ (F32.units h * F32.units c).natAbs →
      F32.scale h c = F32.infOf (F32.sign h ^^ F32.sign c))

/-- 41_feed.md R152: an infinity times anything but a zero or a NaN, on either side, is the infinity whose sign is the
exclusive-or of the operands' signs. General knowledge (log 8). -/
def Obligations.F32ScaleInfinities : Prop :=
  ∀ h c : BitVec 32, F32.isInf h = true → F32.isNaN c = false → c ≠ 0x00000000#32 → c ≠ 0x80000000#32 →
    F32.scale h c = F32.infOf (F32.sign h ^^ F32.sign c) ∧
    F32.scale c h = F32.infOf (F32.sign h ^^ F32.sign c)

/-- 41_feed.md R154: a result is a NaN exactly when an operand is, or for `inf * 0` or the sum of opposite infinities; whatever
the free pattern is (log 7). General knowledge (log 8). -/
def Obligations.F32ResultsAreNaNExactlyWhenInvalid : Prop :=
  (∀ a b : BitVec 32, F32.isNaN (F32.add a b) = true ↔
    (F32.isNaN a = true ∨ F32.isNaN b = true ∨
      (F32.isInf a = true ∧ F32.isInf b = true ∧ F32.sign a ≠ F32.sign b))) ∧
  (∀ h c : BitVec 32, F32.isNaN (F32.scale h c) = true ↔
    (F32.isNaN h = true ∨ F32.isNaN c = true ∨
      (F32.isInf h = true ∧ (c = 0x00000000#32 ∨ c = 0x80000000#32)) ∨
      (F32.isInf c = true ∧ (h = 0x00000000#32 ∨ h = 0x80000000#32))))

/-- 41_feed.md R156 (a): an `F32` FEED response is never `-0.0`, whatever the window and the table hold. It rests on R151,
general knowledge (log 8). -/
def Obligations.F32FeedNeverRespondsNegativeZero : Prop :=
  ∀ (n : Nat) (coef : Vector (BitVec 32) n) (f : RingFilter (BitVec 32) n) (x : BitVec 32),
    (f.feed (formatOps .f32) coef x).2 ≠ 0x80000000#32

/-- 40_coefficient_table.md R117: `F32` equality compares values: finite patterns are equal exactly when they are the same
number, so `+0.0` equals `-0.0`; a NaN equals nothing. General knowledge (log 8). -/
def Obligations.F32EqualityComparesValues : Prop :=
  (∀ a b : BitVec 32, F32.isFinite a = true → F32.isFinite b = true →
    (F32.eq a b = true ↔ F32.units a = F32.units b)) ∧
  F32.eq 0x00000000#32 0x80000000#32 = true ∧
  (∀ a b : BitVec 32, F32.isNaN a = true → F32.eq a b = false ∧ F32.eq b a = false)

/-! ### Ports, several blocks, text form -/

/-- 30_encoding.md R101, R102, R104: at an edge the block's state changes only by a reset or by accepting an offered command while
`cmd_ready` is 1, and then it is exactly the transaction-level machine that moves; while a response is in progress
(`busy_o`), `cmd_ready` is 0 and the state stands still. That it moves at the accepting edge is the model's choice (log 10). -/
def Obligations.PortAcceptsOneCommandAtATime : Prop :=
  ∀ (p : Port) (i : PortIn),
    p.out.busyO = !p.out.cmdReady ∧
    (i.rst = false → p.out.cmdReady = true → i.cmdValid = true →
      exec (p.offeredCommand i) p.core = .next (p.edge i).core) ∧
    (i.rst = false → (p.out.cmdReady = false ∨ i.cmdValid = false) → (p.edge i).core = p.core)

/-- 30_encoding.md R101: a beat on offer stands unchanged until the host takes it. That the block's state stands still with it is
the model's choice: a command takes effect at the accepting edge (log 10). -/
def Obligations.PortHoldsABeatUntilItIsTaken : Prop :=
  ∀ (p : Port) (i : PortIn) (b : Beat), p.out.rsp = some b → i.rst = false → i.rspReady = false →
    (p.edge i).out.rsp = some b ∧ (p.edge i).core = p.core

/-- 30_encoding.md R90, R102, R103, 70_reset_and_hazards.md R241: an accepted command's response is offered in full. With no reset,
whatever the host offers on the command pins meanwhile and however it stalls, once it has been ready, after the latency, at as
many edges as there are beats, the last edge among them, it has taken the response's beats in order, with one status and
`last` on the final one only, and the port is free again. That a command takes effect at the accepting edge and that the
latency counts edges is the model's choice (log 10), and so is that beats follow one another without a gap (log 22). -/
def Obligations.PortDeliversTheWholeResponse : Prop :=
  ∀ (p : Port) (i : PortIn) (r : Response (p.edge i).core.cfg.dataBits) (ins : List PortIn),
    p.delivery = none → i.rst = false → i.cmdValid = true →
    (p.edge i).core.rsp = some r →
    (∀ e ∈ ins, e.rst = false) →
    (ins.drop (latencyOf p.core.cfg (p.offeredCommand i))).countP PortIn.rspReady = r.beats.length →
    ins.getLast?.map PortIn.rspReady = some true →
    ((p.edge i).run ins).2 = beatsOf r.status r.beats ∧
    ((p.edge i).run ins).1.delivery = none ∧ ((p.edge i).run ins).1.core = (p.edge i).core

/-- 70_reset_and_hazards.md R220: at an edge with `rst = 1` every slot becomes zero, the cursor 0 and `fault` 0, whatever was in
progress; no beat is offered, `busy_o` and `fault_o` are 0 and `cmd_ready` is 1. That `cmd_ready` is 1 while `rst` is still
held is the model's choice (log 23). -/
def Obligations.PortResetAbandonsTheCommand : Prop :=
  ∀ (p : Port) (i : PortIn), i.rst = true →
    (p.edge i).core = { p.core with
      filter := ⟨Vector.replicate p.core.cfg.n p.core.cfg.fmt.zero, ⟨0, p.core.cfg.n_pos⟩⟩
      fault := 0
      rsp := none } ∧
    p.taken i = [] ∧
    (p.edge i).out = { cmdReady := true, rsp := none, faultO := false, busyO := false }

/-- 10_state.md R40: a command to one block changes nothing of another, and over any interleaving what happens to a block is what
its own steps alone would do. -/
def Obligations.BlocksDoNotInterfere : Prop :=
  (∀ (y : BlockSystem) (k m : Nat), m ≠ k → (y.stepOne k).blocks[m]? = y.blocks[m]?) ∧
  (∀ (y : BlockSystem) (ks : List Nat) (m : Nat),
    (y.run ks).blocks[m]? = (y.run (ks.filter (fun k => k == m))).blocks[m]?)

/-- 30_encoding.md R95: `FEEDS` stands for one `FEED` for each literal, in order, `FLUSH` for `N` feeds of `zero`, and `.cmd` for
the one word `{op, data}`. -/
def Obligations.PseudoInstructionsExpandToCommands : Prop :=
  (∀ (B : Block) (xs : List Literal),
    (AsmLine.feeds xs).words B = (xs.mapM fun x => (AsmLine.feed x).words B).map List.flatten) ∧
  (∀ B : Block, (AsmLine.flush.words B).map (fun ws => ws.map (decode B)) =
    some (List.replicate B.n (.feed B.fmt.zero.toNat))) ∧
  (∀ (B : Block) (op data : Nat), op < 8 → data < 2 ^ B.dataBits →
    ∃ w, (AsmLine.raw op data).words B = some [w] ∧ (opField B w).toNat = op ∧ (dataField B w).toNat = data)

/-- 20_memory.md R57: the circular index is the sum, less `N` where the sum reaches `N`: one comparison and one subtraction. -/
def Obligations.CircularIndexWrapsAtTheTapCount : Prop :=
  ∀ (n : Nat) (base off : Fin n),
    (circular base off).val = if base.val + off.val < n then base.val + off.val else base.val + off.val - n
end

