-- ==== Sys2Proof/Laws/Decode.lean ====
section
/-! SUPPORT. Laws/Decode: the two fields of a packed word are the fields it was packed from. -/

namespace Sys2Proof

@[simp] theorem opField_packCommand (B : Block) (op : BitVec 3) (data : BitVec B.dataBits) :
    opField B (packCommand B op data) = op := by
  apply BitVec.eq_of_getLsbD_eq
  intro i hi
  show ((op ++ data).extractLsb' B.dataBits 3).getLsbD i = op.getLsbD i
  rw [BitVec.getLsbD_extractLsb', BitVec.getLsbD_append]
  simp [hi]

@[simp] theorem dataField_packCommand (B : Block) (op : BitVec 3) (data : BitVec B.dataBits) :
    dataField B (packCommand B op data) = data := by
  apply BitVec.eq_of_getLsbD_eq
  intro i hi
  show ((op ++ data).extractLsb' 0 B.dataBits).getLsbD i = data.getLsbD i
  rw [BitVec.getLsbD_extractLsb', BitVec.getLsbD_append]
  simp [hi]

theorem Block.wT_le_dataBits (B : Block) : B.fmt.wT ≤ B.dataBits := by
  unfold Block.dataBits; omega

theorem Block.wC_le_dataBits (B : Block) : B.fmt.wC ≤ B.dataBits := by
  unfold Block.dataBits; omega

theorem Block.sizeBits_le_dataBits (B : Block) : B.sizeBits ≤ B.dataBits := by
  unfold Block.dataBits; omega

theorem Block.idxBits_add_le_dataBits (B : Block) : B.idxBits + 8 ≤ B.dataBits := by
  unfold Block.dataBits; omega

/-- `ceilLog2 n` bits are enough to count to `n`. -/
theorem le_two_pow_ceilLog2 (n : Nat) : n ≤ 2 ^ ceilLog2 n := by
  unfold ceilLog2
  split
  · simpa using ‹n ≤ 1›
  · have := Nat.lt_log2_self (n := n - 1)
    omega

end Sys2Proof
end

