-- ==== Sys2Proof/Laws/State.lean ====
section
/-! SUPPORT. Laws/State: one lemma for each field of State under each update, all by `rfl`, so that no proof unfolds a record
update. -/

namespace Sys2Proof.Machine

@[simp] theorem State.respond_cfg (s : State) (st : Status) (bs : List (BitVec s.cfg.dataBits)) :
    (s.respond st bs).cfg = s.cfg := rfl

@[simp] theorem State.respond_filter (s : State) (st : Status) (bs : List (BitVec s.cfg.dataBits)) :
    (s.respond st bs).filter = s.filter := rfl

@[simp] theorem State.respond_fault (s : State) (st : Status) (bs : List (BitVec s.cfg.dataBits)) :
    (s.respond st bs).fault = s.fault := rfl

@[simp] theorem State.respond_host (s : State) (st : Status) (bs : List (BitVec s.cfg.dataBits)) :
    (s.respond st bs).host = s.host := rfl

@[simp] theorem State.respond_rsp (s : State) (st : Status) (bs : List (BitVec s.cfg.dataBits)) :
    (s.respond st bs).rsp = some ⟨st, bs⟩ := rfl

@[simp] theorem State.raise_cfg (s : State) (c : Cause) :
    (s.raise c).cfg = s.cfg := rfl

@[simp] theorem State.raise_filter (s : State) (c : Cause) :
    (s.raise c).filter = s.filter := rfl

@[simp] theorem State.raise_fault (s : State) (c : Cause) :
    (s.raise c).fault = c.code := rfl

@[simp] theorem State.raise_host (s : State) (c : Cause) :
    (s.raise c).host = s.host := rfl

@[simp] theorem State.raise_rsp (s : State) (c : Cause) :
    (s.raise c).rsp = some ⟨.fault, [causeBeat s.cfg c.code]⟩ := rfl

@[simp] theorem State.refuse_cfg (s : State) :
    (s.refuse).cfg = s.cfg := rfl

@[simp] theorem State.refuse_filter (s : State) :
    (s.refuse).filter = s.filter := rfl

@[simp] theorem State.refuse_fault (s : State) :
    (s.refuse).fault = s.fault := rfl

@[simp] theorem State.refuse_host (s : State) :
    (s.refuse).host = s.host := rfl

@[simp] theorem State.refuse_rsp (s : State) :
    (s.refuse).rsp = some ⟨.refused, [causeBeat s.cfg s.fault]⟩ := rfl

@[simp] theorem State.freshFilter_cfg (s : State) :
    (s.freshFilter).cfg = s.cfg := rfl

@[simp] theorem State.freshFilter_filter (s : State) :
    (s.freshFilter).filter = RingFilter.fresh s.cfg.n_pos s.cfg.fmt.zero := rfl

@[simp] theorem State.freshFilter_fault (s : State) :
    (s.freshFilter).fault = s.fault := rfl

@[simp] theorem State.freshFilter_host (s : State) :
    (s.freshFilter).host = s.host := rfl

@[simp] theorem State.freshFilter_rsp (s : State) :
    (s.freshFilter).rsp = s.rsp := rfl

@[simp] theorem State.hardReset_cfg (s : State) :
    (s.hardReset).cfg = s.cfg := rfl

@[simp] theorem State.hardReset_filter (s : State) :
    (s.hardReset).filter = RingFilter.fresh s.cfg.n_pos s.cfg.fmt.zero := rfl

@[simp] theorem State.hardReset_fault (s : State) :
    (s.hardReset).fault = 0 := rfl

@[simp] theorem State.hardReset_host (s : State) :
    (s.hardReset).host = s.host := rfl

@[simp] theorem State.hardReset_rsp (s : State) :
    (s.hardReset).rsp = none := rfl

@[simp] theorem State.dropEvent_cfg (s : State) :
    (s.dropEvent).cfg = s.cfg := rfl

@[simp] theorem State.dropEvent_filter (s : State) :
    (s.dropEvent).filter = s.filter := rfl

@[simp] theorem State.dropEvent_fault (s : State) :
    (s.dropEvent).fault = s.fault := rfl

@[simp] theorem State.dropEvent_host (s : State) :
    (s.dropEvent).host = s.host.tail := rfl

@[simp] theorem State.dropEvent_rsp (s : State) :
    (s.dropEvent).rsp = s.rsp := rfl

@[simp] theorem State.idle_cfg (s : State) :
    (s.idle).cfg = s.cfg := rfl

@[simp] theorem State.idle_filter (s : State) :
    (s.idle).filter = s.filter := rfl

@[simp] theorem State.idle_fault (s : State) :
    (s.idle).fault = s.fault := rfl

@[simp] theorem State.idle_host (s : State) :
    (s.idle).host = s.host := rfl

@[simp] theorem State.idle_rsp (s : State) :
    (s.idle).rsp = none := rfl

@[simp] theorem State.withFetchWord_cfg (s : State) (k w : Nat) :
    (s.withFetchWord k w).cfg = s.cfg := rfl

@[simp] theorem State.withFetchWord_filter (s : State) (k w : Nat) :
    (s.withFetchWord k w).filter = s.filter := rfl

@[simp] theorem State.withFetchWord_fault (s : State) (k w : Nat) :
    (s.withFetchWord k w).fault = s.fault := rfl

@[simp] theorem State.withFetchWord_host (s : State) (k w : Nat) :
    (s.withFetchWord k w).host = .command (tableCommand s.cfg w) :: s.host := rfl

@[simp] theorem State.withFetchWord_rsp (s : State) (k w : Nat) :
    (s.withFetchWord k w).rsp = s.rsp := rfl

@[simp] theorem State.resetOf_cfg (B : Block) : (State.resetOf B).cfg = B := rfl

@[simp] theorem State.resetOf_filter (B : Block) : (State.resetOf B).filter = RingFilter.fresh B.n_pos B.fmt.zero := rfl

@[simp] theorem State.resetOf_fault (B : Block) : (State.resetOf B).fault = 0 := rfl

@[simp] theorem State.resetOf_host (B : Block) : (State.resetOf B).host = [] := rfl

@[simp] theorem State.resetOf_rsp (B : Block) : (State.resetOf B).rsp = none := rfl

@[simp] theorem RingFilter.store_cursor {T : Type} {n : Nat} (f : RingFilter T n) (x : T) :
    (f.store x).cursor = f.cursor := rfl

@[simp] theorem RingFilter.store_history {T : Type} {n : Nat} (f : RingFilter T n) (x : T) :
    (f.store x).history = f.history.set f.cursor.val x f.cursor.isLt := rfl

@[simp] theorem RingFilter.advance_cursor {T : Type} {n : Nat} (f : RingFilter T n) :
    f.advance.cursor = nextCursor f.cursor := rfl

@[simp] theorem RingFilter.advance_history {T : Type} {n : Nat} (f : RingFilter T n) :
    f.advance.history = f.history := rfl

@[simp] theorem RingFilter.fresh_cursor {T : Type} {n : Nat} (hn : 0 < n) (z : T) :
    (RingFilter.fresh hn z).cursor = ⟨0, hn⟩ := rfl

@[simp] theorem RingFilter.fresh_history {T : Type} {n : Nat} (hn : 0 < n) (z : T) :
    (RingFilter.fresh hn z).history = Vector.replicate n z := rfl

end Sys2Proof.Machine
end

