-- ==== Sys2Proof/Laws/Ops.lean ====
section
/-! SUPPORT. Laws/Ops: for each shared operation, once, everything it can do. -/

namespace Sys2Proof.Machine

/-! ### Indices -/

@[simp] theorem circular_val {n : Nat} (base off : Fin n) : (circular base off).val = (base.val + off.val) % n := rfl

@[simp] theorem nextCursor_val {n : Nat} (c : Fin n) : (nextCursor c).val = (c.val + 1) % n := rfl

@[simp] theorem mirrored_val {n : Nat} (i : Fin n) : (mirrored i).val = n - 1 - i.val := rfl

theorem circular_zero {n : Nat} (base : Fin n) (h : 0 < n) : circular base ⟨0, h⟩ = base := by
  apply Fin.ext
  simpa using Nat.mod_eq_of_lt base.isLt

/-! ### Slots -/

theorem RingFilter.get_store_cursor {T : Type} {n : Nat} (f : RingFilter T n) (x : T) :
    (f.store x).history.get f.cursor = x := by
  simp [Vector.get_eq_getElem]

theorem RingFilter.get_store_of_ne {T : Type} {n : Nat} (f : RingFilter T n) (x : T) (k : Fin n) (h : k ≠ f.cursor) :
    (f.store x).history.get k = f.history.get k := by
  have h' : f.cursor.val ≠ k.val := fun e => h (Fin.ext e.symm)
  simp [Vector.get_eq_getElem, Vector.getElem_set_ne, h']

theorem get_replicate {T : Type} {n : Nat} (z : T) (k : Fin n) : (Vector.replicate n z).get k = z := by
  simp [Vector.get_eq_getElem]

@[simp] theorem RingFilter.window_length {T : Type} {n : Nat} (f : RingFilter T n) : f.window.length = n := by
  simp [RingFilter.window]

theorem RingFilter.window_getElem {T : Type} {n : Nat} (f : RingFilter T n) (k : Nat) (h : k < f.window.length) :
    f.window[k] = f.slot ⟨k, by simpa using h⟩ := by
  simp [RingFilter.window]

theorem RingFilter.slot_fresh {T : Type} {n : Nat} (hn : 0 < n) (z : T) (k : Fin n) :
    (RingFilter.fresh hn z).slot k = z :=
  get_replicate z _

/-! ### The feed -/

theorem RingFilter.feed_fst {T C : Type} {n : Nat} (ops : SampleOps T C) (coef : Vector C n) (f : RingFilter T n) (x : T) :
    (f.feed ops coef x).1 = (f.store x).advance := rfl

theorem RingFilter.feed_snd {T C : Type} {n : Nat} (ops : SampleOps T C) (coef : Vector C n) (f : RingFilter T n) (x : T) :
    (f.feed ops coef x).2 = (f.store x).advance.output ops coef := rfl

theorem RingFilter.feed_get_of_ne {T C : Type} {n : Nat} (ops : SampleOps T C) (coef : Vector C n) (f : RingFilter T n)
    (x : T) (k : Fin n) (h : k ≠ f.cursor) : (f.feed ops coef x).1.history.get k = f.history.get k :=
  f.get_store_of_ne x k h

@[simp] theorem RingFilter.feedAll_nil {T C : Type} {n : Nat} (ops : SampleOps T C) (coef : Vector C n)
    (f : RingFilter T n) : f.feedAll ops coef [] = (f, []) := rfl

theorem RingFilter.feedAll_cons {T C : Type} {n : Nat} (ops : SampleOps T C) (coef : Vector C n) (f : RingFilter T n)
    (x : T) (xs : List T) :
    f.feedAll ops coef (x :: xs) =
      (((f.feed ops coef x).1.feedAll ops coef xs).1,
        (f.feed ops coef x).2 :: ((f.feed ops coef x).1.feedAll ops coef xs).2) := rfl

/-! ### The table -/

theorem table_get (B : Block) (k : Fin B.n) :
    B.table.get k = B.coef[k.val]'(by rw [B.coef_length]; exact k.isLt) := rfl

/-- All that the symmetry check says: every mirrored pair below the middle is equal. -/
theorem CoefOps.palindromic_iff {C : Type} {n : Nat} (ops : CoefOps C) (coef : Vector C n) :
    ops.palindromic coef = true ↔
      ∀ i : Fin n, i.val < n / 2 → ops.eq (coef.get i) (coef.get (mirrored i)) = true := by
  simp only [CoefOps.palindromic, List.all_eq_true, List.mem_finRange, true_implies, Bool.or_eq_true,
    decide_eq_true_eq]
  exact forall_congr' fun i => ⟨fun h hi => h.resolve_left (by omega), fun h => by
    by_cases hi : i.val < n / 2
    · exact .inr (h hi)
    · exact .inl (by omega)⟩

/-! ### Refusal and taking a fault -/

theorem State.inFaultState_iff (s : State) : s.inFaultState = true ↔ s.fault ≠ 0 := by
  simp [State.inFaultState]

theorem State.inFaultState_eq_false_iff (s : State) : s.inFaultState = false ↔ s.fault = 0 := by
  simp [State.inFaultState]

theorem unlessFaulted_of_clear (s : State) (run : State → State) (h : s.fault = 0) :
    unlessFaulted s run = .next (run s) := by
  simp [unlessFaulted, State.inFaultState, h]

theorem unlessFaulted_of_faulted (s : State) (run : State → State) (h : s.fault ≠ 0) :
    unlessFaulted s run = .next s.refuse := by
  simp [unlessFaulted, (State.inFaultState_iff s).2 h]

/-- All that a command guarded by the fault test can do. -/
theorem unlessFaulted_cases {s t : State} {run : State → State} (h : unlessFaulted s run = .next t) :
    (s.fault ≠ 0 ∧ t = s.refuse) ∨ (s.fault = 0 ∧ t = run s) := by
  by_cases hf : s.fault = 0
  · rw [unlessFaulted_of_clear s run hf] at h
    exact .inr ⟨hf, (Host.Outcome.next.inj h).symm⟩
  · rw [unlessFaulted_of_faulted s run hf] at h
    exact .inl ⟨hf, (Host.Outcome.next.inj h).symm⟩

/-! ### The step -/

/-- All that a step can do: wait, reset, or run the decoded command. -/
theorem step_cases {s t : State} (h : step s = .next t) :
    (s.host = [] ∧ t = s.idle) ∨
    (∃ rest, s.host = .reset :: rest ∧ t = s.dropEvent.hardReset) ∨
    (∃ word rest, s.host = .command word :: rest ∧ exec (decode s.cfg word) s.dropEvent = .next t) := by
  unfold step at h
  split at h
  · next hh => exact .inl ⟨hh, (Host.Outcome.next.inj h).symm⟩
  · next rest hh => exact .inr (.inl ⟨rest, hh, (Host.Outcome.next.inj h).symm⟩)
  · next word rest hh => exact .inr (.inr ⟨word, rest, hh, h⟩)

end Sys2Proof.Machine
end

