-- ==== Sys2Proof/Laws/Exec.lean ====
section
/-! SUPPORT. Laws/Exec: every command as the shared guard around its own effect, and all that any command can do. -/

namespace Sys2Proof.Machine

theorem exec_size (s : State) :
    exec .size s = unlessFaulted s fun s => s.respond .ok [natBeat s.cfg s.cfg.n] := rfl

theorem exec_coef (s : State) :
    exec .coef s = unlessFaulted s fun s =>
      s.respond .ok ((List.finRange s.cfg.n).map fun k => coefBeat s.cfg (s.cfg.table.get k)) := rfl

theorem exec_vsym (s : State) :
    exec .vsym s = unlessFaulted s fun s =>
      if palindromic s.cfg then s.respond .ok [natBeat s.cfg 0] else s.raise .symmetryViolation := rfl

theorem exec_new (s : State) :
    exec .new s = unlessFaulted s fun s => s.freshFilter.respond .ok [natBeat s.cfg 0] := rfl

theorem exec_feed (x : Nat) (s : State) :
    exec (.feed x) s = unlessFaulted s fun s =>
      { s with
        filter := (s.filter.feed (blockOps s.cfg) s.cfg.table (feedSample s.cfg x)).1
        rsp := some ⟨.ok,
          [sampleBeat s.cfg (s.filter.feed (blockOps s.cfg) s.cfg.table (feedSample s.cfg x)).2]⟩ } := rfl

theorem exec_hist (s : State) :
    exec .hist s = unlessFaulted s fun s => s.respond .ok (s.filter.window.map (sampleBeat s.cfg)) := rfl

theorem exec_stat (s : State) : exec .stat s = .next (s.respond .ok [s.statWord]) := rfl

theorem exec_reserved7 (s : State) :
    exec .reserved7 s = unlessFaulted s fun s => s.raise .illegalCommand := rfl

/-- Every command but STAT is the guard around some effect. -/
theorem exec_guarded (i : Instr) (h : i ≠ .stat) : ∃ run : State → State, ∀ s, exec i s = unlessFaulted s run := by
  cases i with
  | size => exact ⟨_, exec_size⟩
  | coef => exact ⟨_, exec_coef⟩
  | vsym => exact ⟨_, exec_vsym⟩
  | new => exact ⟨_, exec_new⟩
  | feed x => exact ⟨_, exec_feed x⟩
  | hist => exact ⟨_, exec_hist⟩
  | stat => exact absurd rfl h
  | reserved7 => exact ⟨_, exec_reserved7⟩

end Sys2Proof.Machine
end

