-- ==== Sys2Proof/Laws/Float32.lean ====
section
/-! SUPPORT. Laws/Float32: the fields of a packed pattern, and what the NaN maker makes. -/

namespace Sys2Proof.Machine

@[simp] theorem F32.sign_pack (s : Bool) (low : Nat) : F32.sign (F32.pack s low) = s := by
  have h : (F32.pack s low).extractLsb' 31 1 = BitVec.ofBool s := by
    apply BitVec.eq_of_getLsbD_eq
    intro i hi
    have : i = 0 := by omega
    subst this
    rw [BitVec.getLsbD_extractLsb', F32.pack, BitVec.getLsbD_append]
    simp
  rw [F32.sign, h]
  cases s <;> rfl

theorem F32.toNat_pack (s : Bool) (low : Nat) (h : low < 2 ^ 31) :
    (F32.pack s low).toNat = (if s then 2 ^ 31 else 0) + low := by
  rw [F32.pack, BitVec.toNat_append, BitVec.toNat_ofNat, Nat.mod_eq_of_lt h]
  cases s
  · simp
  · rw [← Nat.shiftLeft_add_eq_or_of_lt h]
    simp

theorem F32.expField_eq (b : BitVec 32) : F32.expField b = b.toNat / 2 ^ 23 % 2 ^ 8 := by
  simp [F32.expField, Nat.shiftRight_eq_div_pow]

theorem F32.frac_eq (b : BitVec 32) : F32.frac b = b.toNat % 2 ^ 23 := by
  simp [F32.frac]

theorem F32.frac_lt (b : BitVec 32) : F32.frac b < 2 ^ 23 := by
  rw [F32.frac_eq]; exact Nat.mod_lt _ (by norm_num)

theorem F32.expField_lt (b : BitVec 32) : F32.expField b < 2 ^ 8 := by
  rw [F32.expField_eq]; exact Nat.mod_lt _ (by norm_num)

theorem F32.expField_pack (s : Bool) (low : Nat) (h : low < 2 ^ 31) :
    F32.expField (F32.pack s low) = low / 2 ^ 23 := by
  rw [F32.expField_eq, F32.toNat_pack s low h]
  cases s
  · simp; omega
  · simp; omega

theorem F32.frac_pack (s : Bool) (low : Nat) (h : low < 2 ^ 31) :
    F32.frac (F32.pack s low) = low % 2 ^ 23 := by
  rw [F32.frac_eq, F32.toNat_pack s low h]
  cases s
  · simp
  · simp; omega

/-- Whatever the free pattern is, the NaN made from it is a NaN. -/
@[simp] theorem F32.isNaN_nanOf (p : BitVec 32) : F32.isNaN (F32.nanOf p) = true := by
  have hp := F32.frac_lt p
  have hb : 0x7F800000 + (if F32.frac p = 0 then 1 else F32.frac p) < 2 ^ 31 := by
    split <;> omega
  rw [F32.isNaN, F32.nanOf, F32.expField_pack _ _ hb, F32.frac_pack _ _ hb]
  split
  · simp
  · simp; omega

end Sys2Proof.Machine
end

