-- ==== Sys2Proof/Laws/PerInstr.lean ====
section
/-! SUPPORT. Laws/PerInstr: the statements made for every command as text, one lemma for each constructor. -/

namespace Sys2Proof.Laws.EncodedOp

/-- In every block, the `op` bits of the encoded word are the command's op code (30_encoding.md R80, R81). -/
def Statement (i : Instr) : Prop := ∀ B : Block, opField B (encode B i) = i.op

theorem size : Statement .size := fun B => opField_packCommand B _ _
theorem coef : Statement .coef := fun B => opField_packCommand B _ _
theorem vsym : Statement .vsym := fun B => opField_packCommand B _ _
theorem new : Statement .new := fun B => opField_packCommand B _ _
theorem feed (x : Nat) : Statement (.feed x) := fun B => opField_packCommand B _ _
theorem hist : Statement .hist := fun B => opField_packCommand B _ _
theorem stat : Statement .stat := fun B => opField_packCommand B _ _
theorem reserved7 : Statement .reserved7 := fun B => opField_packCommand B _ _

end Sys2Proof.Laws.EncodedOp
end

