-- ==== Sys2Proof/Laws/Port.lean ====
section
/-! SUPPORT. Laws/Port: the four things an edge does to a delivery, and the three an edge does to the port. -/

namespace Sys2Proof.Machine

@[simp] theorem Delivery.edge_wait {w : Nat} (k : Nat) (st : Status) (b : BitVec w) (bs : List (BitVec w)) (ready : Bool) :
    (⟨k + 1, st, b, bs⟩ : Delivery w).edge ready = some ⟨k, st, b, bs⟩ := rfl

@[simp] theorem Delivery.edge_hold {w : Nat} (st : Status) (b : BitVec w) (bs : List (BitVec w)) :
    (⟨0, st, b, bs⟩ : Delivery w).edge false = some ⟨0, st, b, bs⟩ := rfl

@[simp] theorem Delivery.edge_next {w : Nat} (st : Status) (b b' : BitVec w) (bs : List (BitVec w)) :
    (⟨0, st, b, b' :: bs⟩ : Delivery w).edge true = some ⟨0, st, b', bs⟩ := rfl

@[simp] theorem Delivery.edge_last {w : Nat} (st : Status) (b : BitVec w) :
    (⟨0, st, b, []⟩ : Delivery w).edge true = none := rfl

theorem Port.edge_reset (p : Port) (i : PortIn) (h : i.rst = true) : p.edge i = ⟨p.core.hardReset, none⟩ := by
  simp only [Port.edge, h, if_true]

/-- The command pins play no part while a response is in progress. -/
theorem Port.edge_busy (p : Port) (i : PortIn) (d : Delivery p.core.cfg.dataBits) (h : p.delivery = some d)
    (hr : i.rst = false) : p.edge i = ⟨p.core, d.edge i.rspReady⟩ := by
  simp [Port.edge, h, hr]

theorem Port.edge_free (p : Port) (i : PortIn) (h : p.delivery = none) (hr : i.rst = false) :
    p.edge i = if i.cmdValid then p.accept (p.offeredCommand i) else p := by
  simp [Port.edge, h, hr]

end Sys2Proof.Machine
end

