-- ==== Sys2Proof/Tests/Slice0.lean ====
section
/-! SUPPORT. Tests: expected results are those of 95_test_vectors.md (S1, S2, V1 to V47, P1 to P6), of its section 6 (what must
be refused), or words written out by hand from 30_encoding.md R80 to R83; and, for each statement with hypotheses, a witness
that meets them. -/

namespace Sys2Proof.Tests

open Sys2Proof Sys2Proof.Machine

/-! ### Builders -/

/-- An `F32` block of a table. -/
def blockOf (cs : List (BitVec 32)) (h : Config.wf ⟨cs.length, .f32, cs, Latency.none⟩ = true) : Block :=
  ⟨⟨cs.length, .f32, cs, Latency.none⟩, h⟩

/-- A state of a block: slots in physical order, cursor, fault; no event waits. -/
def stateOf (B : Block) (slots : List Nat) (h : slots.length = B.n) (cursor : Fin B.n) (fault : BitVec 3) : State where
  cfg := B
  filter := ⟨⟨(slots.map (BitVec.ofNat B.fmt.wT)).toArray, by simpa using h⟩, cursor⟩
  fault := fault
  host := []
  rsp := none

/-- What a test looks at: response, slots, cursor, fault. -/
structure View where
  rsp : Option (Status × List Nat)
  slots : List Nat
  cursor : Nat
  fault : Nat
deriving DecidableEq, Repr

def viewOf (s : State) : View where
  rsp := s.rsp.map fun r => (r.status, r.beats.map BitVec.toNat)
  slots := s.filter.history.toList.map BitVec.toNat
  cursor := s.filter.cursor.val
  fault := s.fault.toNat

/-- The next state's view; nothing where the machine stops. -/
def seen : Host.Outcome State Fault Refusal → Option View
  | .next t => some (viewOf t)
  | .fault _ => none
  | .refused _ => none

/-- coef = [3.0] (V1). -/
def oneTap : Block := blockOf [0x40400000#32] (by decide)

/-- coef = [1.0, 2.0, 3.0] (V14, V21, P2, P4). -/
def threeTaps : Block := blockOf [0x3F800000#32, 0x40000000#32, 0x40400000#32] (by decide)

/-- coef = [+0.0, 1.0, -0.0] (V17). -/
def signedZeros : Block := blockOf [0x00000000#32, 0x3F800000#32, 0x80000000#32] (by decide)

/-- coef = [1.0, 2.0, 3.0, 1.0] (V16). -/
def innerMismatch : Block :=
  blockOf [0x3F800000#32, 0x40000000#32, 0x40400000#32, 0x3F800000#32] (by decide)

/-- coef = [1.0, 1 + 2^-12] (V42). -/
def unfusedTaps : Block := blockOf [0x3F800000#32, 0x3F800800#32] (by decide)

/-- coef = [0.2, 0.4, 1.0, 0.4, 0.5] (S2 altered, P3). -/
def fiveTaps : Block :=
  blockOf [0x3E4CCCCD#32, 0x3ECCCCCD#32, 0x3F800000#32, 0x3ECCCCCD#32, 0x3F000000#32] (by decide)

/-- PAIR(F32), coef = [1.0, -1.0] (V37). -/
def stereo : Block := ⟨⟨2, .pair .f32, [0x3F800000#32, 0xBF800000#32], Latency.none⟩, by decide⟩

/-! ### Well-formedness (60_exceptions.md R193; 95_test_vectors.md section 6): each check refuses something -/

theorem test_wf_refuses_zero_taps :
    Config.wf ⟨0, .f32, [], Latency.none⟩ = false ∧ Config.wf ⟨1, .f32, [0#32], Latency.none⟩ = true := by decide

theorem test_wf_refuses_short_table :
    Config.wf ⟨3, .f32, [0#32, 0#32], Latency.none⟩ = false ∧
    Config.wf ⟨3, .f32, [0#32, 0#32, 0#32], Latency.none⟩ = true := by decide

theorem test_wf_refuses_nan_and_infinite_coefficients :
    Config.wf ⟨1, .f32, [0x7FC00000#32], Latency.none⟩ = false ∧
    Config.wf ⟨1, .f32, [0xFF800000#32], Latency.none⟩ = false ∧
    Config.wf ⟨1, .f32, [0x7F7FFFFF#32], Latency.none⟩ = true := by decide

theorem test_wf_refuses_zero_widths (c : BitVec 8) (d : BitVec 0) :
    Config.wf ⟨1, .custom 0 0 8, [c], Latency.none⟩ = false ∧
    Config.wf ⟨1, .custom 0 8 0, [d], Latency.none⟩ = false := by
  simp [Config.wf, Format.widthsOk]

/-- R9: `W_T` = 32, so 2^32 - 1 is the largest sample code. -/
theorem test_wf_refuses_wide_sample :
    (Instr.feed (2 ^ 32)).wf Block.scenario = false ∧ (Instr.feed (2 ^ 32 - 1)).wf Block.scenario = true := by decide

theorem test_decode_refuses_wide_word :
    (decodeWord Block.scenario (2 ^ 35)).isOk = false ∧ (decodeWord Block.scenario (2 ^ 35 - 1)).isOk = true ∧
    decodeTableWord 40 (2 ^ 35) = none := by decide

/-! ### Decoding: one word for each constructor, `{op, data}` written out from R80 and R81 (35 bits, nine hex digits) -/

theorem test_decode_size : decodeTableWord 40 0x000000000 = some .size := by decide
theorem test_decode_coef : decodeTableWord 40 0x1FFFFFFFF = some .coef := by decide
theorem test_decode_vsym : decodeTableWord 40 0x200000000 = some .vsym := by decide
theorem test_decode_new : decodeTableWord 40 0x300000001 = some .new := by decide

/-- P1 command 2: `FEED 100`. -/
theorem test_decode_feed : decodeTableWord 40 0x442C80000 = some (.feed 0x42C80000) := by decide
theorem test_decode_hist : decodeTableWord 40 0x500000000 = some .hist := by decide

/-- Section 6: `.cmd 6, 0x123` is STAT with ignored data bits. -/
theorem test_decode_stat : decodeTableWord 40 0x600000123 = some .stat := by decide

/-- P5 command 1: `.cmd 7, 0x123`. -/
theorem test_decode_reserved7 : decodeTableWord 40 0x700000123 = some .reserved7 := by decide

/-- V37: `FEED (1, 10)` in a block of 67-bit words, lane 0 in the low bits. -/
theorem test_decode_pair_feed :
    stereo.cmdBits = 67 ∧
    (decodeWord stereo 0x4412000003F800000).toOption = some (.feed 0x412000003F800000) := by decide

/-- P1, P5: the words of `FEED 100` and `STAT`. -/
theorem test_encode :
    (encode Block.scenario (.feed 0x42C80000)).toNat = 0x442C80000 ∧
    (encode Block.scenario .stat).toNat = 0x600000000 := by decide

/-- R9 at `N = 1, 3, 4, 5`: IDX_BITS, SIZE_BITS, DATA_BITS. -/
theorem test_widths :
    (oneTap.idxBits, threeTaps.idxBits, Block.scenario.idxBits, fiveTaps.idxBits) = (1, 2, 2, 3) ∧
    (oneTap.sizeBits, threeTaps.sizeBits, Block.scenario.sizeBits, fiveTaps.sizeBits) = (1, 2, 3, 3) ∧
    (Block.scenario.dataBits, stereo.dataBits) = (32, 64) := by decide

/-! ### The commands, one step each -/

/-- V1 and V2. -/
theorem test_size :
    seen (exec .size (State.resetOf oneTap)) = some ⟨some (.ok, [1]), [0], 0, 0⟩ ∧
    seen (exec .size State.reset) = some ⟨some (.ok, [4]), [0, 0, 0, 0], 0, 0⟩ := by decide

/-- V3. -/
theorem test_coef : seen (exec .coef State.reset) =
    some ⟨some (.ok, [0x3F800000, 0x00000000, 0x40000000, 0x00000000]), [0, 0, 0, 0], 0, 0⟩ := by decide

/-- V17: numeric equality, not equality of patterns. -/
theorem test_vsym_signed_zeros :
    seen (exec .vsym (State.resetOf signedZeros)) = some ⟨some (.ok, [0]), [0, 0, 0], 0, 0⟩ := by decide

/-- V16: only the inner pair differs. -/
theorem test_vsym_inner_pair :
    seen (exec .vsym (State.resetOf innerMismatch)) = some ⟨some (.fault, [1]), [0, 0, 0, 0], 0, 1⟩ := by decide

/-- P4 command 6. -/
theorem test_new :
    seen (exec .new (stateOf threeTaps [0x447A0000, 0x41200000, 0x42C80000] (by decide) ⟨1, by decide⟩ 0)) =
      some ⟨some (.ok, [0]), [0, 0, 0], 0, 0⟩ := by decide

/-- P3 command 4: NEW does not clear the fault. -/
theorem test_new_refused :
    seen (exec .new (stateOf fiveTaps [0x3F800000, 0, 0, 0, 0] (by decide) ⟨1, by decide⟩ 1)) =
      some ⟨some (.refused, [1]), [0x3F800000, 0, 0, 0, 0], 1, 1⟩ := by decide

/-- V21 feed 3: the cursor wraps at 3, and 3210 = 1*10 + 2*100 + 3*1000 uses every slot once. -/
theorem test_feed_non_power_of_two :
    seen (exec (.feed 0x447A0000)
      (stateOf threeTaps [0x3F800000, 0x41200000, 0x42C80000] (by decide) ⟨0, by decide⟩ 0)) =
      some ⟨some (.ok, [0x4548A000]), [0x447A0000, 0x41200000, 0x42C80000], 1, 0⟩ := by decide

/-- V42, second feed: a fused multiply-add would give 2^-24. -/
theorem test_feed_unfused :
    seen (exec (.feed 0x3F800800) (stateOf unfusedTaps [0xBF801000, 0] (by decide) ⟨1, by decide⟩ 0)) =
      some ⟨some (.ok, [0x00000000]), [0xBF801000, 0x3F800800], 0, 0⟩ := by decide

/-- V37, second feed: each lane filters its own channel. -/
theorem test_feed_pair :
    seen (exec (.feed 0x41F0000040400000) (stateOf stereo [0x412000003F800000, 0] (by decide) ⟨1, by decide⟩ 0)) =
      some ⟨some (.ok, [0xC1A00000C0000000]), [0x412000003F800000, 0x41F0000040400000], 0, 0⟩ := by decide

/-- V33: oldest first after a wrap (5, 6, 3, 4 in the slots, cursor 2). -/
theorem test_hist :
    seen (exec .hist (stateOf Block.scenario [0x40A00000, 0x40C00000, 0x40400000, 0x40800000]
      (by decide) ⟨2, by decide⟩ 0)) =
      some ⟨some (.ok, [0x40400000, 0x40800000, 0x40A00000, 0x40C00000]),
        [0x40A00000, 0x40C00000, 0x40400000, 0x40800000], 2, 0⟩ := by decide

/-- V34: a negative zero and a NaN with a payload come back bit for bit. -/
theorem test_hist_bit_for_bit :
    seen (exec .hist (stateOf unfusedTaps [0x80000000, 0x7FC00001] (by decide) ⟨0, by decide⟩ 0)) =
      some ⟨some (.ok, [0x80000000, 0x7FC00001]), [0x80000000, 0x7FC00001], 0, 0⟩ := by decide

/-- P5 command 3: STAT runs in the fault state. -/
theorem test_stat_in_fault_state :
    seen (exec .stat (stateOf Block.scenario [0x42C80000, 0, 0, 0] (by decide) ⟨1, by decide⟩ 3)) =
      some ⟨some (.ok, [0x103]), [0x42C80000, 0, 0, 0], 1, 3⟩ := by decide

/-- V36: with `N = 5`, after four feeds, 0x400. -/
theorem test_stat_cursor :
    (seen (exec .stat (stateOf fiveTaps [0, 0, 0, 0, 0] (by decide) ⟨4, by decide⟩ 0))).map View.rsp =
      some (some (.ok, [0x400])) := by decide

/-- P5 command 1. -/
theorem test_reserved7 :
    seen (exec .reserved7 (stateOf Block.scenario [0x42C80000, 0, 0, 0] (by decide) ⟨1, by decide⟩ 0)) =
      some ⟨some (.fault, [3]), [0x42C80000, 0, 0, 0], 1, 3⟩ := by decide

/-- P5 command 2: a refused FEED stores nothing. -/
theorem test_refused_feed :
    seen (exec (.feed 0x43480000) (stateOf Block.scenario [0x42C80000, 0, 0, 0] (by decide) ⟨1, by decide⟩ 3)) =
      some ⟨some (.refused, [3]), [0x42C80000, 0, 0, 0], 1, 3⟩ := by decide

/-- P1 command 2 as the first word after reset. -/
theorem test_step_first_word :
    seen (step (State.reset.withFetchWord 40 0x442C80000)) =
      some ⟨some (.ok, [0]), [0x42C80000, 0, 0, 0], 1, 0⟩ := by decide

/-- P3, the hardware reset: it leaves the fault state. -/
theorem test_step_reset :
    seen (step { stateOf fiveTaps [0x3F800000, 0, 0, 0, 0] (by decide) ⟨1, by decide⟩ 1 with host := [.reset] }) =
      some ⟨none, [0, 0, 0, 0, 0], 0, 0⟩ := by decide

/-! ### Binary32 -/

/-- V47: half of 1, 3, 2 units (ties to even, subnormal) and of the smallest normal (no flush to zero). -/
theorem test_f32_scale_subnormal :
    F32.scale 0x00000001 0x3F000000 = 0x00000000#32 ∧ F32.scale 0x00000003 0x3F000000 = 0x00000002#32 ∧
    F32.scale 0x00000002 0x3F000000 = 0x00000001#32 ∧ F32.scale 0x00800000 0x3F000000 = 0x00400000#32 := by decide

/-- V41 and V47: a tie to even at 2^24, and overflow to an infinity. V43: `(+0) + (-0) = +0`. -/
theorem test_f32_add :
    F32.add 0x4B800000 0x3F800000 = 0x4B800000#32 ∧ F32.add 0x7F61B1E6 0x7F61B1E6 = 0x7F800000#32 ∧
    F32.add 0x00000000 0x80000000 = 0x00000000#32 := by decide

/-- V45: `inf * 0.0` is a NaN, whatever its free pattern. -/
theorem test_f32_inf_times_zero : F32.isNaN (F32.scale 0x7F800000 0x00000000) = true :=
  F32.isNaN_nanOf _

/-- S2, V44: 0.2 and 0.1 read as decimals. -/
theorem test_f32_decimal :
    F32.ofDecimal false 2 1 = 0x3E4CCCCD#32 ∧ F32.ofDecimal false 1 1 = 0x3DCCCCCD#32 ∧
    F32.ofDecimal true 100048828125 11 = 0xBF801000#32 := by decide

/-- S2 in `EXACT` (41_feed.md R158): the table of the source and the altered one. -/
theorem test_exact_symmetry :
    CoefOps.exact.palindromic (#v[1/5, 2/5, 1, 2/5, 1/5] : Vector ℚ 5) = true ∧
    CoefOps.exact.palindromic (#v[1/5, 2/5, 1, 2/5, 1/2] : Vector ℚ 5) = false := by
  constructor <;> norm_num [CoefOps.palindromic, CoefOps.exact, List.finRange_succ, mirrored, Vector.get]

/-- R151's table of signed zeros and infinities, and R152's sign of an infinite product. -/
theorem test_f32_signs :
    F32.add 0x80000000 0x80000000 = 0x80000000#32 ∧ F32.add 0x3F800000 0xBF800000 = 0x00000000#32 ∧
    F32.add 0xFF800000 0x7F7FFFFF = 0xFF800000#32 ∧ F32.scale 0xBF800000 0x7F800000 = 0xFF800000#32 := by decide

/-! ### Text form and ports -/

/-- P5, and a line with FEEDS: the data of a program. -/
def programP5 : AsmProgram where
  n := 4
  type := .f32
  coef := [.decimal false 10 1, .decimal false 0 1, .decimal false 20 1, .decimal false 0 1]
  lines := [.feeds [.decimal false 100 0], .raw 7 0x123, .feed (.decimal false 200 0), .stat]

theorem test_program_words :
    (programP5.words Block.scenario).map (List.map BitVec.toNat) =
      some [0x442C80000, 0x700000123, 0x443480000, 0x600000000] := by decide

/-- R94: in `EXACT`, `0.2` is 1/5 and `-1.25` is -5/4. -/
theorem test_exact_literals :
    exactLiteral (.decimal false 2 1) = some (1 / 5) ∧ exactLiteral (.decimal true 125 2) = some (-5 / 4) := by
  norm_num [exactLiteral]

/-- A raw word of an op above 7 or of too wide data is refused (log 25); the widest that fits is one word. -/
theorem test_raw_range :
    (AsmLine.raw 8 0).words Block.scenario = none ∧ (AsmLine.raw 7 (2 ^ 32)).words Block.scenario = none ∧
    ((AsmLine.raw 7 (2 ^ 32 - 1)).words Block.scenario).map List.length = some 1 := by decide

/-- R93: a line of text, with a comment. -/
theorem test_line_of_text :
    lineOf (tokensOf [] ['F', 'E', 'E', 'D', 'S', ' ', '1', '.', '5', ',', ' ', '0', 'x', '7', ';', 'x']) =
      some (.feeds [.decimal false 15 1, .hex 1 7]) := by decide

/-- The pins of a host that offers the command `op`, `data` and takes beats. -/
def offer (op : BitVec 3) (data : Nat) : PortIn := ⟨false, true, op, data, true⟩

/-- The pins of a host that offers nothing and takes beats. -/
def listening : PortIn := ⟨false, false, 0, 0, true⟩

/-- R100 to R102: SIZE is accepted, the port is busy, the one beat is offered with `last`. -/
theorem test_port_size :
    ((⟨State.reset, none⟩ : Port).edge (offer 0 0)).out = ⟨false, some ⟨0, true, 4⟩, false, true⟩ := by decide

/-! ### Witnesses: the hypotheses of every statement that has some are met -/

/-- A state with a mixed history and a cursor in the middle. -/
def mixed : State := stateOf threeTaps [0x447A0000, 0x41200000, 0x42C80000] (by decide) ⟨1, by decide⟩ 0

/-- For the statements whose hypothesis is `fault = 0` alone: ResetAndNewLeaveTheResetValues, SizeRespondsWithTheTapCount,
CoefRespondsWithTheTable, NewZeroesTheFilter, ReservedCodeRaisesIllegalCommand, FeedIsTotalAndNoCommandStops,
SizeCountsTheBeatsOfCoefAndHist; the last state is one no run reaches from reset by itself. -/
theorem witness_clear_state :
    State.reset.fault = 0 ∧ (State.resetOf oneTap).fault = 0 ∧ mixed.fault = 0 := by decide

/-- DecodeOfEncodeIsTheCommand: the largest sample code of an `F32` and of a pair block. -/
theorem witness_DecodeOfEncodeIsTheCommand :
    (Instr.feed 0xFFFFFFFF).wf Block.scenario = true ∧ (Instr.feed 0xFFFFFFFFFFFFFFFF).wf stereo = true ∧
    Instr.reserved7.wf oneTap = true := by decide

/-- UnusedDataBitsHaveNoEffect: two STAT words that differ in every data bit, and a FEED word. -/
theorem witness_UnusedDataBitsHaveNoEffect :
    (opField Block.scenario (BitVec.ofNat _ 0x600000000) = opField Block.scenario (BitVec.ofNat _ 0x6FFFFFFFF) ∧
      opField Block.scenario (BitVec.ofNat _ 0x6FFFFFFFF) ≠ 4) ∧
    (opField Block.scenario (BitVec.ofNat _ 0x4FFFFFFFF) = 4 ∧
      (dataField Block.scenario (BitVec.ofNat _ 0x4FFFFFFFF)).extractLsb' 0 Block.scenario.fmt.wT = 0xFFFFFFFF) := by
  decide

/-- StepRunsTheDecodedCommand, ResetAndNewLeaveTheResetValues: a command, a reset and nothing in the queue. -/
theorem witness_StepRunsTheDecodedCommand :
    (State.reset.withFetchWord 40 0x500000000).host = [.command (tableCommand Block.scenario 0x500000000)] ∧
    ({ mixed with host := [.reset] } : State).host = .reset :: [] ∧ mixed.host = [] := by decide

/-- VsymPassesExactlyOnPalindromes: a palindromic and another table. -/
theorem witness_VsymPassesExactlyOnPalindromes :
    ((State.resetOf signedZeros).fault = 0 ∧ signedZeros.Palindromic) ∧
    ((State.resetOf innerMismatch).fault = 0 ∧ ¬ innerMismatch.Palindromic) := by
  unfold Block.Palindromic; decide

/-- MiddleCoefficientIsNotCompared: V13's table, the middle set to 5.0; and `N = 1`. -/
theorem witness_MiddleCoefficientIsNotCompared :
    (Config.wf ⟨threeTaps.n, threeTaps.fmt, threeTaps.coef.set 1 0x40A00000#32, threeTaps.latency⟩ = true ∧
      threeTaps.n = 2 * 1 + 1) ∧ oneTap.n = 1 := by decide

/-- FeedStoresAdvancesAndConvolves: the last tap reads around the wrap. -/
theorem witness_FeedStoresAdvancesAndConvolves :
    mixed.fault = 0 ∧ (∃ j i : Fin 3, i.val = (2 + j.val) % 3 ∧ j.val = 2 ∧ i.val = 1) ∧
    (∃ k : Fin mixed.cfg.n, k ≠ mixed.filter.cursor) := by decide

/-- HistRespondsOldestFirst: the first beat is at the cursor, the last wraps. -/
theorem witness_HistRespondsOldestFirst :
    mixed.fault = 0 ∧
    ∃ k i : Fin mixed.cfg.n, i.val = (mixed.filter.cursor.val + k.val) % mixed.cfg.n ∧ k.val = 2 ∧ i.val = 0 := by
  decide

/-- A state in the fault state, over a table that is not palindromic, that shows the response that put it there. -/
def faulted : State :=
  { stateOf fiveTaps [0x3F800000, 0, 0, 0, 0] (by decide) ⟨1, by decide⟩ 1 with
    rsp := some ⟨.fault, [BitVec.ofNat _ 1]⟩ }

/-- FaultStateRefusesAllButStat: both codes that are held. -/
theorem witness_FaultStateRefusesAllButStat :
    (faulted.fault ≠ 0 ∧ Instr.feed 7 ≠ .stat) ∧ ({ mixed with fault := 3 } : State).fault ≠ 0 ∧ mixed.fault = 0 := by
  decide

/-- CommandsChangeOnlyWhatTheyMay and NoStepChangesTheConfiguration: a next state exists for each command. -/
theorem witness_CommandsChangeOnlyWhatTheyMay :
    ∀ i ∈ [Instr.size, .coef, .vsym, .new, .feed 7, .hist, .stat, .reserved7], ∃ t, exec i mixed = .next t := by
  intro i hi
  simp only [List.mem_cons, List.not_mem_nil, or_false] at hi
  rcases hi with rfl | rfl | rfl | rfl | rfl | rfl | rfl | rfl <;> exact ⟨_, rfl⟩

/-- OnlyVsymAndReservedCodeRaise: each of the two does raise. -/
theorem witness_OnlyVsymAndReservedCodeRaise :
    (∃ t, exec .vsym mixed = .next t ∧ t.fault ≠ mixed.fault) ∧
    (∃ t, exec .reserved7 mixed = .next t ∧ t.fault ≠ mixed.fault) :=
  ⟨⟨_, rfl, by decide⟩, ⟨_, rfl, by decide⟩⟩

/-- ReadCommandsChangeNoLaterResponse. -/
theorem witness_ReadCommandsChangeNoLaterResponse :
    ∀ i : Instr, i = .size ∨ i = .coef ∨ i = .hist ∨ i = .stat → ∃ t, exec i mixed = .next t := by
  rintro i (rfl | rfl | rfl | rfl) <;> exact ⟨_, rfl⟩

/-- EveryStepKeepsTheInvariant: a faulted state that meets the invariant by its last two clauses, and steps. -/
theorem witness_EveryStepKeepsTheInvariant : faulted.Inv ∧ ∃ t, step faulted = .next t := by
  refine ⟨⟨by decide, by decide, ?_⟩, _, rfl⟩
  intro r hr
  cases hr
  exact ⟨by decide, by decide⟩

/-- NoStepChangesTheConfiguration, OnlyResetLeavesTheFaultState: a NEW word waits, and the step has a next state. -/
theorem witness_OnlyResetLeavesTheFaultState :
    (faulted.withFetchWord 40 0x300000000).fault ≠ 0 ∧
    (∀ rest, (faulted.withFetchWord 40 0x300000000).host ≠ .reset :: rest) ∧
    ∃ t, step (faulted.withFetchWord 40 0x300000000) = .next t :=
  ⟨by decide, (by intro rest h; cases h), _, rfl⟩

/-- NewIsAsGoodAsReset. -/
theorem witness_NewIsAsGoodAsReset : mixed.fault = 0 ∧ ∃ t, exec .new mixed = .next t := ⟨rfl, _, rfl⟩

/-- ResponsesDependOnTheWindowOnly: the same window at another cursor. -/
theorem witness_ResponsesDependOnTheWindowOnly :
    (stateOf threeTaps [0x41200000, 0x42C80000, 0x447A0000] (by decide) ⟨0, by decide⟩ 0).filter.window =
      mixed.filter.window ∧
    Instr.stat ∉ [Instr.hist, .feed 0xFFFFFFFF, .new] :=
  ⟨rfl, by decide⟩

/-- HistReflectsTheLastFeeds: the largest code. -/
theorem witness_HistReflectsTheLastFeeds : ∀ x ∈ [0, 0xFFFFFFFF], x < 2 ^ Block.scenario.fmt.wT := by decide

/-- For the statements about filters whose hypothesis is `0 < n` (DelayLineEqualsTheRingBuffer, ResponsesHaveTheTimeDomainForm,
ImpulseResponseIsTheTableReversed, PairLanesAreIndependentFilters): the least `n`. -/
theorem witness_one_slot : 0 < 1 ∧ (RingFilter.fresh (n := 1) Nat.one_pos (5 : ℚ)).history.toList = [5] := by
  exact ⟨Nat.one_pos, rfl⟩

/-- HistoryHoldsTheNewestSamples: with `n = 3` and four samples slot 0 holds the sample 3, the boundary `4 <= 1 + 3` is met
in slot 1, and with two samples slot 2 is empty. -/
theorem witness_HistoryHoldsTheNewestSamples :
    (0 < 3 ∧ 3 < 4 ∧ 3 % 3 = (0 : Fin 3).val ∧ 4 ≤ 3 + 3) ∧ (1 < 4 ∧ 1 % 3 = (1 : Fin 3).val ∧ 4 ≤ 1 + 3) ∧
    2 ≤ (2 : Fin 3).val := by decide

/-- SuperpositionHoldsForLinearOperations: the integers are linear; two sequences of one length. -/
theorem witness_SuperpositionHoldsForLinearOperations :
    (⟨0, fun a b => a + b, fun a b => a * b⟩ : SampleOps Int Int).Linear ∧ [1, 2].length = [3, 4].length :=
  ⟨⟨fun a b c => add_assoc a b c, fun a b => add_comm a b, fun a => zero_add a, fun a b c => add_mul a b c⟩, rfl⟩

/-- F32AddRoundsToNearestEven, each clause: the largest value plus just less than, and exactly, half of its last place; and a
tie at 2^24 with the neighbour above. -/
theorem witness_F32AddRoundsToNearestEven :
    (F32.isFinite 0x7F7FFFFF = true ∧ F32.isFinite 0x72FFFFFF = true ∧
      (F32.units 0x7F7FFFFF + F32.units 0x72FFFFFF).natAbs < (2 ^ 25 - 1) * 2 ^ 252) ∧
    (F32.isFinite 0x73000000 = true ∧
      (F32.units 0x7F7FFFFF + F32.units 0x73000000).natAbs = (2 ^ 25 - 1) * 2 ^ 252) ∧
    (F32.isFinite 0x4B800001 = true ∧
      (F32.units (F32.add 0x4B800000 0x3F800000) - (F32.units 0x4B800000 + F32.units 0x3F800000)).natAbs =
        (F32.units 0x4B800001 - (F32.units 0x4B800000 + F32.units 0x3F800000)).natAbs ∧
      F32.units 0x4B800001 ≠ F32.units (F32.add 0x4B800000 0x3F800000)) := by decide

/-- F32AddZerosAndInfinities, each clause: two negative zeros, `x + (-x)`, an infinity with the largest finite value. -/
theorem witness_F32AddZerosAndInfinities :
    (F32.isFinite 0x80000000 = true ∧ F32.units 0x80000000 + F32.units 0x80000000 = 0) ∧
    (F32.isFinite 0x3F800000 = true ∧ F32.isFinite 0xBF800000 = true ∧
      F32.units 0x3F800000 + F32.units 0xBF800000 = 0) ∧
    (F32.isInf 0xFF800000 = true ∧ F32.isFinite 0x7F7FFFFF = true) := by decide

/-- F32ScaleInfinities: the least positive value, and the other infinity. -/
theorem witness_F32ScaleInfinities :
    F32.isInf 0x7F800000 = true ∧ (F32.isNaN 0x00000001 = false ∧ (0x00000001#32 ≠ 0 ∧ 0x00000001#32 ≠ 0x80000000#32)) ∧
    F32.isNaN 0xFF800000 = false := by decide

/-- F32ScaleRoundsToNearestEven, each clause: `55831 * 601 = 2^25 - 1` scaled to the threshold exactly, one unit in the last
place of a factor below it, and half of the smallest subnormal with the neighbour above. -/
theorem witness_F32ScaleRoundsToNearestEven :
    (F32.isFinite 0x645A1700 = true ∧ F32.isFinite 0x5A964000 = true ∧
      (F32.units 0x645A1700 * F32.units 0x5A964000).natAbs = (2 ^ 25 - 1) * 2 ^ 252 * 2 ^ 149) ∧
    (F32.isFinite 0x645A16FF = true ∧
      (F32.units 0x645A16FF * F32.units 0x5A964000).natAbs < (2 ^ 25 - 1) * 2 ^ 252 * 2 ^ 149) ∧
    ((F32.units (F32.scale 1 0x3F000000) * 2 ^ 149 - F32.units 1 * F32.units 0x3F000000).natAbs =
        (F32.units 1 * 2 ^ 149 - F32.units 1 * F32.units 0x3F000000).natAbs ∧
      F32.units 1 ≠ F32.units (F32.scale 1 0x3F000000)) := by decide

/-- F32EqualityComparesValues: two finite patterns of one value, two of different values, and a NaN. -/
theorem witness_F32EqualityComparesValues :
    (F32.isFinite 0x80000000 = true ∧ F32.isFinite 0x00000000 = true ∧ F32.units 0x80000000 = F32.units 0x00000000) ∧
    (F32.isFinite 0x00000001 = true ∧ F32.units 0x00000001 ≠ F32.units 0x80000001) ∧
    F32.isNaN 0xFFFFFFFF = true := by decide

/-- PortAcceptsOneCommandAtATime, PortHoldsABeatUntilItIsTaken, PortResetAbandonsTheCommand: a free port, a busy port with a
beat on offer, and the pins. -/
theorem witness_ports :
    ((offer 1 0).rst = false ∧ (⟨mixed, none⟩ : Port).out.cmdReady = true ∧ (offer 1 0).cmdValid = true) ∧
    ((⟨mixed, some ⟨0, .ok, 5, []⟩⟩ : Port).out.cmdReady = false ∧ listening.cmdValid = false) ∧
    ((⟨mixed, some ⟨0, .ok, 5, []⟩⟩ : Port).out.rsp = some ⟨0, true, 5⟩ ∧
      ({ listening with rspReady := false } : PortIn).rspReady = false) ∧
    ({ listening with rst := true } : PortIn).rst = true := by decide

/-- A host that stalls once and holds its next command, a FEED, at the busy port. -/
def stallingHost : List PortIn := [{ offer 4 7 with rspReady := false }, offer 4 7, listening, offer 4 7]

/-- PortDeliversTheWholeResponse: COEF from a free port, whose three beats a stalling host takes at four edges. -/
theorem witness_PortDeliversTheWholeResponse :
    ∃ r, ((⟨mixed, none⟩ : Port).edge (offer 1 0)).core.rsp = some r ∧
      (stallingHost.drop (latencyOf mixed.cfg ((⟨mixed, none⟩ : Port).offeredCommand (offer 1 0)))).countP
        PortIn.rspReady = r.beats.length ∧
      stallingHost.getLast?.map PortIn.rspReady = some true ∧ ∀ e ∈ stallingHost, e.rst = false :=
  ⟨_, rfl, by decide, by decide, by decide⟩

/-- BlocksDoNotInterfere: two positions that differ. -/
theorem witness_BlocksDoNotInterfere :
    (⟨[mixed, faulted]⟩ : BlockSystem).blocks[1]? = some faulted ∧ 0 ≠ 1 := by decide

/-- PseudoInstructionsExpandToCommands: the largest `op` and `data`. -/
theorem witness_PseudoInstructionsExpandToCommands :
    7 < 8 ∧ 0xFFFFFFFF < 2 ^ Block.scenario.dataBits ∧
    ((AsmLine.raw 7 0xFFFFFFFF).words Block.scenario).map (List.map BitVec.toNat) = some [0x7FFFFFFFF] := by decide

end Sys2Proof.Tests
end

section
/-! What any command leaves unchanged, and from it that no step changes the configuration. -/

namespace Sys2Proof.Machine

/-- `t` is `s` but for the filter, the fault register and the response: what a command may write (10_state.md R23). The
configuration and the host's queue are those of `s`. -/
def State.SameOutsideFilterFaultRsp (s t : State) : Prop :=
  ∃ (f : RingFilter s.cfg.Sample s.cfg.n) (c : BitVec 3) (r : Option (Response s.cfg.dataBits)),
    t = { s with filter := f, fault := c, rsp := r }

theorem State.SameOutsideFilterFaultRsp.cfg_eq {s t : State} (h : s.SameOutsideFilterFaultRsp t) : t.cfg = s.cfg := by
  obtain ⟨f, c, r, rfl⟩ := h
  rfl

theorem State.sameOutside_respond (s : State) (st : Status) (bs : List (BitVec s.cfg.dataBits)) :
    s.SameOutsideFilterFaultRsp (s.respond st bs) := ⟨_, _, _, rfl⟩

theorem State.sameOutside_raise (s : State) (c : Cause) : s.SameOutsideFilterFaultRsp (s.raise c) := ⟨_, _, _, rfl⟩

/-- The guard adds nothing to what its effect writes: a refusal is a response. -/
theorem unlessFaulted_sameOutside {s t : State} {run : State → State} (h : unlessFaulted s run = .next t)
    (hrun : s.SameOutsideFilterFaultRsp (run s)) : s.SameOutsideFilterFaultRsp t := by
  obtain ⟨-, rfl⟩ | ⟨-, rfl⟩ := unlessFaulted_cases h
  · exact s.sameOutside_respond _ _
  · exact hrun

/-- All that any command can write, in the fault state too. -/
theorem exec_sameOutside {i : Instr} {s t : State} (h : exec i s = .next t) : s.SameOutsideFilterFaultRsp t := by
  cases i with
  | size =>
    rw [exec_size] at h
    exact unlessFaulted_sameOutside h (s.sameOutside_respond _ _)
  | coef =>
    rw [exec_coef] at h
    exact unlessFaulted_sameOutside h (s.sameOutside_respond _ _)
  | vsym =>
    rw [exec_vsym] at h
    refine unlessFaulted_sameOutside h ?_
    split
    · exact s.sameOutside_respond _ _
    · exact s.sameOutside_raise _
  | new =>
    rw [exec_new] at h
    exact unlessFaulted_sameOutside h ⟨_, _, _, rfl⟩
  | feed x =>
    rw [exec_feed] at h
    exact unlessFaulted_sameOutside h ⟨_, _, _, rfl⟩
  | hist =>
    rw [exec_hist] at h
    exact unlessFaulted_sameOutside h (s.sameOutside_respond _ _)
  | stat =>
    rw [exec_stat] at h
    cases h
    exact s.sameOutside_respond _ _
  | reserved7 =>
    rw [exec_reserved7] at h
    exact unlessFaulted_sameOutside h (s.sameOutside_raise _)

/-- Settles O24: waiting and reset write other fields only, and a command runs within its frame on the shortened queue. -/
theorem noStepChangesTheConfiguration : Obligations.NoStepChangesTheConfiguration := by
  intro s t h
  obtain ⟨-, rfl⟩ | ⟨rest, -, rfl⟩ | ⟨word, rest, -, hexec⟩ := step_cases h
  · exact s.idle_cfg
  · exact s.dropEvent.hardReset_cfg.trans s.dropEvent_cfg
  · exact (exec_sameOutside hexec).cfg_eq.trans s.dropEvent_cfg

end Sys2Proof.Machine
end

section
/-! All that any command can do, said once: it is refused, it answers, or it raises. From it the frame of every command and
the invariant. -/

namespace Sys2Proof.Machine

/-! ### What a command can do -/

/-- The filters a command may leave behind (10_state.md R23): FEED writes one slot and the cursor, NEW writes all, every other
command nothing. -/
def State.MayLeaveFilter (s : State) (f : RingFilter s.cfg.Sample s.cfg.n) : Instr → Prop
  | .new => True
  | .feed _ => ∀ k, k ≠ s.filter.cursor → f.history.get k = s.filter.history.get k
  | _ => f = s.filter

theorem State.mayLeaveFilter_self (s : State) (i : Instr) : s.MayLeaveFilter s.filter i := by
  cases i with
  | new => trivial
  | feed x => exact fun _ _ => rfl
  | size | coef | vsym | hist | stat | reserved7 => rfl

/-- `t` is `s` after `i` was executed: an OK response of one or `N` beats, and `fault` is kept. -/
def State.AnswersTo (s t : State) (i : Instr) : Prop :=
  ∃ (f : RingFilter s.cfg.Sample s.cfg.n) (beats : List (BitVec s.cfg.dataBits)),
    s.MayLeaveFilter f i ∧ (beats.length = 1 ∨ beats.length = s.cfg.n) ∧
    t = { s with filter := f, rsp := some ⟨.ok, beats⟩ }

theorem State.answersTo_respond (s : State) (i : Instr) (beats : List (BitVec s.cfg.dataBits))
    (h : beats.length = 1 ∨ beats.length = s.cfg.n) : s.AnswersTo (s.respond .ok beats) i :=
  ⟨s.filter, beats, s.mayLeaveFilter_self i, h, rfl⟩

/-- The commands that raise, with their causes (60_exceptions.md R191). -/
inductive State.MayRaise (s : State) : Instr → Cause → Prop
  | vsym (h : palindromic s.cfg = false) : s.MayRaise .vsym .symmetryViolation
  | reserved7 : s.MayRaise .reserved7 .illegalCommand

/-- In the fault state every command but STAT is refused. -/
theorem exec_of_faulted {i : Instr} {s : State} (hf : s.fault ≠ 0) (hi : i ≠ .stat) : exec i s = .next s.refuse := by
  obtain ⟨run, hrun⟩ := exec_guarded i hi
  rw [hrun, unlessFaulted_of_faulted s run hf]

/-- Outside the fault state a command answers or raises. -/
theorem exec_of_clear {s : State} (hf : s.fault = 0) (i : Instr) :
    ∃ t, exec i s = .next t ∧ (s.AnswersTo t i ∨ ∃ c, s.MayRaise i c ∧ t = s.raise c) := by
  have clear (run : State → State) : unlessFaulted s run = .next (run s) := unlessFaulted_of_clear s run hf
  cases i with
  | size => exact ⟨_, (exec_size s).trans (clear _), .inl (s.answersTo_respond _ _ (.inl rfl))⟩
  | coef => exact ⟨_, (exec_coef s).trans (clear _), .inl (s.answersTo_respond _ _ (.inr (by simp)))⟩
  | vsym =>
    rw [exec_vsym, clear]
    cases hp : palindromic s.cfg with
    | true => exact ⟨_, rfl, .inl (s.answersTo_respond _ _ (.inl rfl))⟩
    | false => exact ⟨_, rfl, .inr ⟨_, .vsym hp, rfl⟩⟩
  | new => exact ⟨_, (exec_new s).trans (clear _), .inl ⟨_, _, trivial, .inl rfl, rfl⟩⟩
  | feed x =>
    exact ⟨_, (exec_feed x s).trans (clear _), .inl ⟨_, _, s.filter.feed_get_of_ne _ _ _, .inl rfl, rfl⟩⟩
  | hist => exact ⟨_, (exec_hist s).trans (clear _), .inl (s.answersTo_respond _ _ (.inr (by simp)))⟩
  | stat => exact ⟨_, exec_stat s, .inl (s.answersTo_respond _ _ (.inl rfl))⟩
  | reserved7 => exact ⟨_, (exec_reserved7 s).trans (clear _), .inr ⟨_, .reserved7, rfl⟩⟩

/-- Every command has a next state in every state (41_feed.md R139, 60_exceptions.md R195, R201). -/
theorem exec_next (i : Instr) (s : State) : ∃ t, exec i s = .next t := by
  by_cases hf : s.fault = 0
  · obtain ⟨t, ht, -⟩ := exec_of_clear hf i
    exact ⟨t, ht⟩
  · by_cases hi : i = .stat
    · exact ⟨_, hi ▸ exec_stat s⟩
    · exact ⟨_, exec_of_faulted hf hi⟩

theorem step_next (s : State) : ∃ t, step s = .next t := by
  unfold step
  split
  · exact ⟨_, rfl⟩
  · exact ⟨_, rfl⟩
  · exact exec_next _ _

/-- All that a command can do: be refused, answer (STAT in every state, the others where `fault` is 0), or raise. -/
theorem exec_cases {i : Instr} {s t : State} (h : exec i s = .next t) :
    (s.fault ≠ 0 ∧ t = s.refuse) ∨ s.AnswersTo t i ∨ ∃ c, s.fault = 0 ∧ s.MayRaise i c ∧ t = s.raise c := by
  by_cases hf : s.fault = 0
  · obtain ⟨u, hu, hcases⟩ := exec_of_clear hf i
    obtain rfl : u = t := Host.Outcome.next.inj (hu.symm.trans h)
    exact .inr (hcases.imp_right fun ⟨c, hc, hu⟩ => ⟨c, hf, hc, hu⟩)
  · by_cases hi : i = .stat
    · subst hi
      obtain rfl := Host.Outcome.next.inj h
      exact .inr (.inl (s.answersTo_respond _ _ (.inl rfl)))
    · exact .inl ⟨hf, (Host.Outcome.next.inj ((exec_of_faulted hf hi).symm.trans h)).symm⟩

/-! ### The invariant -/

theorem State.Inv.idle {s : State} : s.Inv → s.idle.Inv :=
  fun ⟨hcode, hpal, _⟩ => ⟨hcode, hpal, fun _ hr => nomatch hr⟩

theorem State.Inv.dropEvent {s : State} (h : s.Inv) : s.dropEvent.Inv := h

theorem State.hardReset_inv (s : State) : s.hardReset.Inv :=
  ⟨.inl rfl, fun h => absurd h (by simp), fun _ hr => nomatch hr⟩

theorem State.Inv.refuse {s : State} (h : s.Inv) (hf : s.fault ≠ 0) : s.refuse.Inv := by
  obtain ⟨hcode, hpal, -⟩ := h
  refine ⟨hcode, hpal, fun r hr => ?_⟩
  obtain rfl := Option.some.inj hr
  exact ⟨hf, rfl⟩

theorem State.Inv.answersTo {s t : State} {i : Instr} (h : s.Inv) (ha : s.AnswersTo t i) : t.Inv := by
  obtain ⟨hcode, hpal, -⟩ := h
  obtain ⟨f, beats, -, hlen, rfl⟩ := ha
  refine ⟨hcode, hpal, fun r hr => ?_⟩
  obtain rfl := Option.some.inj hr
  exact hlen

/-- A raise establishes the invariant by itself: what it writes over the old `fault` is the cause it responds with. -/
theorem State.raise_inv {s : State} {i : Instr} {c : Cause} (hc : s.MayRaise i c) : (s.raise c).Inv := by
  have hcode : c.code ≠ 0 := by cases c <;> decide
  have hrsp : ∀ r, (s.raise c).rsp = some r → r.agrees (s.raise c) := fun r hr => by
    obtain rfl := Option.some.inj hr
    exact ⟨hcode, rfl⟩
  cases hc with
  | vsym hp => exact ⟨.inr (.inl rfl), fun _ => hp, hrsp⟩
  | reserved7 => exact ⟨.inr (.inr rfl), fun h => absurd h (by simp [Cause.code]), hrsp⟩

theorem exec_keeps_inv {s t : State} {i : Instr} (h : s.Inv) (he : exec i s = .next t) : t.Inv := by
  obtain ⟨hf, rfl⟩ | ha | ⟨c, -, hc, rfl⟩ := exec_cases he
  · exact h.refuse hf
  · exact h.answersTo ha
  · exact State.raise_inv hc

/-- Settles O22: waiting and a reset take the response away, and a command keeps the invariant in each of its three ways. -/
theorem everyStepKeepsTheInvariant : Obligations.EveryStepKeepsTheInvariant := by
  intro s t h hstep
  obtain ⟨-, rfl⟩ | ⟨rest, -, rfl⟩ | ⟨word, rest, -, hexec⟩ := step_cases hstep
  · exact h.idle
  · exact s.dropEvent.hardReset_inv
  · exact exec_keeps_inv h.dropEvent hexec

/-- A command keeps `fault` and writes no more of the filter than it may, or it raises. -/
theorem exec_keeps_fault_or_raises {i : Instr} {s t : State} (h : exec i s = .next t) :
    (∃ f r, s.MayLeaveFilter f i ∧ t = { s with filter := f, rsp := r }) ∨ ∃ c, s.MayRaise i c ∧ t = s.raise c := by
  obtain ⟨-, rfl⟩ | ⟨f, beats, hfilter, -, rfl⟩ | ⟨c, -, hc, rfl⟩ := exec_cases h
  · exact .inl ⟨s.filter, _, s.mayLeaveFilter_self i, rfl⟩
  · exact .inl ⟨f, _, hfilter, rfl⟩
  · exact .inr ⟨c, hc, rfl⟩

/-- Settles O19: `fault` changes only by a raise, which leaves the filter; all else is what the command may write of it. -/
theorem commandsChangeOnlyWhatTheyMay : Obligations.CommandsChangeOnlyWhatTheyMay := by
  intro i s t h
  obtain ⟨f, r, hfilter, rfl⟩ | ⟨c, hc, rfl⟩ := exec_keeps_fault_or_raises h
  · refine ⟨f, s.fault, r, rfl, ?_⟩
    cases i with
    | size | coef | hist | stat => exact ⟨hfilter, rfl⟩
    | vsym | reserved7 => exact hfilter
    | new => rfl
    | feed x => exact ⟨rfl, hfilter⟩
  · refine ⟨s.filter, c.code, _, rfl, ?_⟩
    cases hc with
    | vsym | reserved7 => rfl

end Sys2Proof.Machine
end

section
/-! The ring buffer's indices, and what a feed does to the window: where the cursor stands plays no part in it
(10_state.md R42). -/

namespace Sys2Proof.Machine

/-- `k` places on from the advanced cursor is one place further from the old one. -/
theorem nextCursor_add_mod {n : Nat} (c : Fin n) (k : Nat) : ((nextCursor c).val + k) % n = (c.val + (k + 1)) % n := by
  rw [nextCursor_val, Nat.mod_add_mod, Nat.add_assoc, Nat.add_comm 1]

/-- Less than a whole turn never comes back to the same index. -/
theorem add_mod_ne_self {n : Nat} (c : Fin n) (k : Nat) (hk : 0 < k) (hkn : k < n) : (c.val + k) % n ≠ c.val :=
  fun h => Nat.not_dvd_of_pos_of_lt hk hkn (Nat.add_modEq_left_iff.1 (h.trans (Nat.mod_eq_of_lt c.isLt).symm))

/-- From the advanced cursor an offset short of the last is one slot further from the old cursor, and not that slot. -/
theorem circular_nextCursor_of_lt {n : Nat} (c j : Fin n) (h : j.val + 1 < n) :
    circular (nextCursor c) j = circular c ⟨j.val + 1, h⟩ ∧ circular (nextCursor c) j ≠ c := by
  have hval : (circular (nextCursor c) j).val = (c.val + (j.val + 1)) % n := nextCursor_add_mod c j.val
  refine ⟨Fin.ext hval, fun hc => ?_⟩
  exact add_mod_ne_self c (j.val + 1) j.val.succ_pos h (hval.symm.trans (congrArg Fin.val hc))

/-- From the advanced cursor the last offset is the slot just written. -/
theorem circular_nextCursor_last {n : Nat} (c j : Fin n) (h : ¬ j.val + 1 < n) : circular (nextCursor c) j = c := by
  apply Fin.ext
  have hj : j.val + 1 = n := by omega
  rw [circular_val, nextCursor_add_mod, hj, Nat.add_mod_right, Nat.mod_eq_of_lt c.isLt]

/-- After a feed, window position `j` holds what was one place further, and the last one the new sample. -/
theorem RingFilter.slot_store_advance {T : Type} {n : Nat} (f : RingFilter T n) (x : T) (j : Fin n) :
    (f.store x).advance.slot j = if h : j.val + 1 < n then f.slot ⟨j.val + 1, h⟩ else x := by
  rw [RingFilter.slot, RingFilter.advance_history, RingFilter.advance_cursor, RingFilter.store_cursor]
  split
  · next h =>
    obtain ⟨hslot, hne⟩ := circular_nextCursor_of_lt f.cursor j h
    rw [f.get_store_of_ne x _ hne, hslot, RingFilter.slot]
  · next h => rw [circular_nextCursor_last f.cursor j h, f.get_store_cursor]

/-- Two filters have one window exactly when they agree at every window position. -/
theorem RingFilter.window_eq_iff {T : Type} {n : Nat} {f g : RingFilter T n} :
    f.window = g.window ↔ ∀ j, f.slot j = g.slot j := by
  simp [RingFilter.window, List.map_inj_left]

theorem RingFilter.window_store_advance_congr {T : Type} {n : Nat} {f g : RingFilter T n} (h : f.window = g.window)
    (x : T) : (f.store x).advance.window = (g.store x).advance.window :=
  RingFilter.window_eq_iff.2 fun j => by
    simp only [RingFilter.slot_store_advance, RingFilter.window_eq_iff.1 h]

/-- The convolution reads nothing but the window. -/
theorem RingFilter.output_congr {T C : Type} {n : Nat} (ops : SampleOps T C) (coef : Vector C n) {f g : RingFilter T n}
    (h : f.window = g.window) : f.output ops coef = g.output ops coef :=
  List.foldl_ext _ _ _ fun acc j _ => by
    simp only [RingFilter.mac, RingFilter.term, RingFilter.window_eq_iff.1 h j]

end Sys2Proof.Machine
end

section
/-! Two states of one block with one window and one fault respond alike to everything but STAT. -/

namespace Sys2Proof.Machine

/-- A command with a next state goes on with the rest of the sequence. -/
theorem runCommands_cons_snd {i : Instr} {s t : State} (h : exec i s = .next t) (is : List Instr) :
    (runCommands s (i :: is)).2 =
      t.rsp.map (fun r => (r.status, r.beats.map BitVec.toNat)) :: (runCommands t is).2 := by
  simp only [runCommands, h]

/-- `t` is `s` but for its filter, and the two filters have one window. -/
def State.SameWindow (s t : State) : Prop :=
  ∃ f : RingFilter s.cfg.Sample s.cfg.n, t = { s with filter := f } ∧ f.window = s.filter.window

theorem State.SameWindow.rsp_eq {s t : State} (h : s.SameWindow t) :
    t.rsp.map (fun r => (r.status, r.beats.map BitVec.toNat)) =
      s.rsp.map (fun r => (r.status, r.beats.map BitVec.toNat)) := by
  obtain ⟨f, rfl, -⟩ := h
  rfl

/-- The fault test has one answer on both states, and a refusal reads `fault` alone. -/
theorem exec_sameWindow_of_guarded {i : Instr} {run : State → State} (hguard : ∀ s, exec i s = unlessFaulted s run)
    {s s' : State} (h : s.SameWindow s') (hrun : (run s).SameWindow (run s')) :
    ∃ t t', exec i s = .next t ∧ exec i s' = .next t' ∧ t.SameWindow t' := by
  obtain ⟨f, rfl, hw⟩ := h
  rw [hguard, hguard]
  by_cases hf : s.fault = 0
  · exact ⟨_, _, unlessFaulted_of_clear s run hf, unlessFaulted_of_clear _ run hf, hrun⟩
  · exact ⟨_, _, unlessFaulted_of_faulted s run hf, unlessFaulted_of_faulted _ run hf, f, rfl, hw⟩

/-- Every command but STAT takes two such states to two such states. -/
theorem exec_sameWindow {i : Instr} {s s' : State} (h : s.SameWindow s') (hi : i ≠ .stat) :
    ∃ t t', exec i s = .next t ∧ exec i s' = .next t' ∧ t.SameWindow t' := by
  obtain ⟨f, rfl, hw⟩ := id h
  cases i with
  | size => exact exec_sameWindow_of_guarded exec_size h ⟨f, rfl, hw⟩
  | coef => exact exec_sameWindow_of_guarded exec_coef h ⟨f, rfl, hw⟩
  | vsym =>
    refine exec_sameWindow_of_guarded exec_vsym h ?_
    cases palindromic s.cfg with
    | true => exact ⟨f, rfl, hw⟩
    | false => exact ⟨f, rfl, hw⟩
  | new => exact exec_sameWindow_of_guarded exec_new h ⟨_, rfl, rfl⟩
  | feed x =>
    have hw' := RingFilter.window_store_advance_congr hw (feedSample s.cfg x)
    refine exec_sameWindow_of_guarded (exec_feed x) h ⟨(f.store (feedSample s.cfg x)).advance, ?_, hw'⟩
    simp only [RingFilter.feed_fst, RingFilter.feed_snd, RingFilter.output_congr _ _ hw']
  | hist =>
    refine exec_sameWindow_of_guarded exec_hist h ⟨f, ?_, hw⟩
    simp only [State.respond, hw]
  | stat => exact absurd rfl hi
  | reserved7 => exact exec_sameWindow_of_guarded exec_reserved7 h ⟨f, rfl, hw⟩

/-- One window, one sequence of responses: by induction on the commands, over all pairs of such states. -/
theorem runCommands_sameWindow {s s' : State} (h : s.SameWindow s') (cs : List Instr) (hstat : .stat ∉ cs) :
    (runCommands s' cs).2 = (runCommands s cs).2 := by
  induction cs generalizing s s' with
  | nil => rfl
  | cons i cs ih =>
    obtain ⟨hi, hcs⟩ := not_or.1 (List.mem_cons.not.1 hstat)
    obtain ⟨t, t', hs, hs', ht⟩ := exec_sameWindow h (Ne.symm hi)
    rw [runCommands_cons_snd hs, runCommands_cons_snd hs', ht.rsp_eq, ih ht hcs]

/-- Settles O27: another filter with the same window gives such a pair of states. -/
theorem responsesDependOnTheWindowOnly : Obligations.ResponsesDependOnTheWindowOnly :=
  fun _ f cs hw hstat => runCommands_sameWindow ⟨f, rfl, hw⟩ cs hstat

end Sys2Proof.Machine
end

section
/-! Where a sequence of feeds leaves the cursor and what it leaves in each slot, from any filter. -/

namespace Sys2Proof.Machine

section
variable {T C : Type} {n : Nat} (ops : SampleOps T C) (coef : Vector C n)

@[simp] theorem RingFilter.feed_cursor (f : RingFilter T n) (x : T) :
    (f.feed ops coef x).1.cursor = nextCursor f.cursor := rfl

theorem RingFilter.feed_get_cursor (f : RingFilter T n) (x : T) :
    (f.feed ops coef x).1.history.get f.cursor = x := f.get_store_cursor x

theorem RingFilter.feedAll_cursor (f : RingFilter T n) (xs : List T) :
    (f.feedAll ops coef xs).1.cursor.val = (f.cursor.val + xs.length) % n := by
  induction xs generalizing f with
  | nil => exact (Nat.mod_eq_of_lt f.cursor.isLt).symm
  | cons x xs ih => rw [feedAll_cons, ih, feed_cursor, nextCursor_add_mod, List.length_cons]

/-- A slot that no feed of the sequence writes keeps its sample. -/
theorem RingFilter.feedAll_get_of_not_written (f : RingFilter T n) (xs : List T) (i : Fin n)
    (h : ∀ m < xs.length, (f.cursor.val + m) % n ≠ i.val) :
    (f.feedAll ops coef xs).1.history.get i = f.history.get i := by
  induction xs generalizing f with
  | nil => rfl
  | cons x xs ih =>
    have hne : i ≠ f.cursor := by
      rintro rfl
      exact h 0 (by simp) (Nat.mod_eq_of_lt f.cursor.isLt)
    have hlater : ∀ m < xs.length, ((f.feed ops coef x).1.cursor.val + m) % n ≠ i.val := fun m hm => by
      rw [feed_cursor, nextCursor_add_mod]
      exact h (m + 1) (Nat.succ_lt_succ hm)
    rw [feedAll_cons, ih _ hlater, feed_get_of_ne ops coef f x i hne]

/-- The slot the `m`-th feed wrote holds its sample until the cursor comes round, `n` feeds later. -/
theorem RingFilter.feedAll_get_newest (f : RingFilter T n) (xs : List T) (i : Fin n) (m : Nat) (hm : m < xs.length)
    (hi : (f.cursor.val + m) % n = i.val) (hnew : xs.length ≤ m + n) :
    (f.feedAll ops coef xs).1.history.get i = xs[m] := by
  induction xs generalizing f m with
  | nil => exact absurd hm (Nat.not_lt_zero m)
  | cons x xs ih =>
    rw [List.length_cons] at hnew
    rw [feedAll_cons]
    cases m with
    | zero =>
      obtain rfl : f.cursor = i := Fin.ext (by simpa [Nat.mod_eq_of_lt f.cursor.isLt] using hi)
      have hkept : ∀ k < xs.length, ((f.feed ops coef x).1.cursor.val + k) % n ≠ f.cursor.val := fun k hk => by
        rw [feed_cursor, nextCursor_add_mod]
        exact add_mod_ne_self f.cursor (k + 1) k.succ_pos (by omega)
      rw [feedAll_get_of_not_written ops coef _ xs _ hkept, feed_get_cursor, List.getElem_cons_zero]
    | succ m =>
      rw [List.getElem_cons_succ]
      exact ih (f.feed ops coef x).1 m _ (by rwa [feed_cursor, nextCursor_add_mod]) (by omega)

end

/-- Settles O36: from reset the `m`-th feed writes slot `m mod N`, and an index not yet reached is written by none. -/
theorem historyHoldsTheNewestSamples : Obligations.HistoryHoldsTheNewestSamples := by
  intro T C n hn ops coef xs
  refine ⟨?_, fun i m hm hi hnew => ?_, fun i hi => ?_⟩
  · rw [RingFilter.feedAll_cursor, RingFilter.fresh_cursor, Nat.zero_add]
  · refine RingFilter.feedAll_get_newest ops coef _ xs i m hm ?_ hnew
    rw [RingFilter.fresh_cursor, Nat.zero_add, hi]
  · rw [RingFilter.feedAll_get_of_not_written ops coef _ xs i ?_, RingFilter.fresh_history, get_replicate]
    intro m hm
    have hmi : m < i.val := Nat.lt_of_lt_of_le hm hi
    rw [RingFilter.fresh_cursor, Nat.zero_add, Nat.mod_eq_of_lt (Nat.lt_trans hmi i.isLt)]
    exact Nat.ne_of_lt hmi

end Sys2Proof.Machine
end

section
/-! Several blocks: a schedule runs each block as often as it names it, and nothing else. -/

namespace Sys2Proof.Machine

/-- A block after one step of its own, which always has a next state (`step_next`). -/
def State.stepped (s : State) : State :=
  match step s with
  | .next t => t
  | .fault _ => s
  | .refused _ => s

theorem BlockSystem.stepOne_blocks (y : BlockSystem) (k : Nat) :
    (y.stepOne k).blocks = y.blocks.modify k State.stepped := by
  rw [List.modify_eq_set_getElem?]
  cases hk : y.blocks[k]? with
  | none => simp [BlockSystem.stepOne, hk]
  | some s =>
    obtain ⟨t, ht⟩ := step_next s
    simp [BlockSystem.stepOne, State.stepped, hk, ht]

/-- Over any schedule block `m` takes exactly its own steps, as many as the schedule names it. -/
theorem BlockSystem.run_getElem? (y : BlockSystem) (ks : List Nat) (m : Nat) :
    (y.run ks).blocks[m]? = y.blocks[m]?.map State.stepped^[ks.count m] := by
  induction ks generalizing y with
  | nil => simp [BlockSystem.run]
  | cons k ks ih =>
    rw [BlockSystem.run, ih, BlockSystem.stepOne_blocks]
    by_cases hk : k = m
    · subst hk
      rw [List.getElem?_modify_eq, List.count_cons_self, Function.iterate_succ, ← Option.map_map, Option.map_eq_map]
    · rw [List.getElem?_modify_ne _ _ hk, List.count_cons_of_ne hk]

/-- Settles O51: what a schedule does to block `m` depends on how often it names `m` alone. -/
theorem blocksDoNotInterfere : Obligations.BlocksDoNotInterfere := by
  refine ⟨fun y k m hmk => ?_, fun y ks m => ?_⟩
  · rw [BlockSystem.stepOne_blocks, List.getElem?_modify_ne _ _ hmk.symm]
  · rw [BlockSystem.run_getElem?, BlockSystem.run_getElem?, List.count_filter (p := (· == m)) (beq_self_eq_true m)]

end Sys2Proof.Machine
end

section
/-! Reset and NEW: the reset values, from any state and for any configuration. -/

namespace Sys2Proof.Machine

theorem step_of_reset {s : State} {rest : List (HostEvent s.cfg.cmdBits)} (h : s.host = .reset :: rest) :
    step s = .next { s with
      filter := RingFilter.fresh s.cfg.n_pos s.cfg.fmt.zero
      fault := 0
      host := rest
      rsp := none } := by
  have hstep : step s = .next s.dropEvent.hardReset := by simp only [step, h]
  have htail : s.host.tail = rest := by rw [h, List.tail_cons]
  rw [hstep, State.hardReset, State.dropEvent, htail]

/-- Settles O5: `RingFilter.fresh` is the filter of the table, and NEW runs its effect where `fault` is 0. -/
theorem resetAndNewLeaveTheResetValues : Obligations.ResetAndNewLeaveTheResetValues :=
  ⟨fun _ _ h => step_of_reset h, fun s hf => ⟨_, (exec_new s).trans (unlessFaulted_of_clear s _ hf)⟩⟩

/-- Settles O6: the fields of `State.resetOf`, and every slot of a replicated vector. -/
theorem resetStateHoldsTheResetValues : Obligations.ResetStateHoldsTheResetValues :=
  ⟨fun B => ⟨rfl, rfl, rfl, fun k => get_replicate B.fmt.zero k, rfl, rfl⟩, rfl⟩

/-- The state after reset is its own reset. -/
theorem State.hardReset_resetOf (B : Block) : (State.resetOf B).hardReset = State.resetOf B := rfl

/-- Settles O23: a reset establishes the invariant, and the state after reset is one. -/
theorem resetSatisfiesTheInvariant : Obligations.ResetSatisfiesTheInvariant :=
  have hinv (B : Block) : (State.resetOf B).Inv := State.hardReset_resetOf B ▸ State.hardReset_inv _
  ⟨hinv, hinv Block.scenario⟩

end Sys2Proof.Machine
end

section
/-! One step: a waiting command word is decoded and run on the rest of the queue, and with no event the block waits. -/

namespace Sys2Proof.Machine

theorem State.dropEvent_of_host {s : State} {e : HostEvent s.cfg.cmdBits} {rest : List (HostEvent s.cfg.cmdBits)}
    (h : s.host = e :: rest) : s.dropEvent = { s with host := rest } := by
  rw [State.dropEvent, h, List.tail_cons]

theorem step_of_command {s : State} {w : BitVec s.cfg.cmdBits} {rest : List (HostEvent s.cfg.cmdBits)}
    (h : s.host = .command w :: rest) : step s = exec (decode s.cfg w) { s with host := rest } := by
  rw [← State.dropEvent_of_host h]
  simp only [step, h]

theorem step_of_no_event {s : State} (h : s.host = []) : step s = .next s.idle := by
  simp only [step, h]

/-- The two fields of a table word (30_encoding.md R81), the data bits in a data field of any width. -/
theorem decode_tableCommand (B : Block) (w : Nat) :
    decode B (tableCommand B w) =
      decodeFields B (BitVec.ofNat 3 (w / 2 ^ 32)) (BitVec.ofNat B.dataBits (w % 2 ^ 32)) := by
  have hop : tableOp w = BitVec.ofNat 3 (w / 2 ^ 32) := by rw [tableOp, Nat.shiftRight_eq_div_pow]
  have hdata : (tableData w).setWidth B.dataBits = BitVec.ofNat B.dataBits (w % 2 ^ 32) :=
    BitVec.eq_of_toNat_eq (by simp [tableData])
  rw [decode, tableCommand, opField_packCommand, dataField_packCommand, hop, hdata]

/-- Settles O4: taking the placed word off the queue again leaves the state it was placed on. -/
theorem stepRunsTheDecodedCommand : Obligations.StepRunsTheDecodedCommand :=
  ⟨fun _ _ _ h => step_of_command h, fun _ h => step_of_no_event h, fun s k w =>
    (step_of_command (s.withFetchWord_host k w)).trans (congrArg (exec · s) (decode_tableCommand s.cfg w))⟩

end Sys2Proof.Machine
end

section
/-! The circular index as hardware computes it. -/

namespace Sys2Proof.Machine

/-- Settles O53: two indices below `N` sum to less than `2 * N`, so the remainder takes off `N` at most once. -/
theorem circularIndexWrapsAtTheTapCount : Obligations.CircularIndexWrapsAtTheTapCount := by
  intro n base off
  rw [circular_val]
  split
  · next hlt => exact Nat.mod_eq_of_lt hlt
  · next hge =>
    have hwrapped : base.val + off.val - n < n := by omega
    rw [Nat.mod_eq_sub_mod (Nat.le_of_not_lt hge), Nat.mod_eq_of_lt hwrapped]

end Sys2Proof.Machine
end

section
/-! The decoder on each op code, and the encoder as its inverse (30_encoding.md R80 to R86). -/

namespace Sys2Proof

/-! ### Decoding op by op -/

/-- Each of the eight op codes is a command's: the decoder is total (R86). -/
theorem exists_instr_of_op (op : BitVec 3) : ∃ i : Instr, i.op = op := by
  have hrows : ∃ i ∈ [.size, .coef, .vsym, .new, .feed 0, .hist, .stat, .reserved7], Instr.op i = op := by
    revert op
    decide
  obtain ⟨i, -, hi⟩ := hrows
  exact ⟨i, hi⟩

/-- A command without operand is decoded from its op code alone (R82). -/
theorem decodeFields_of_op_ne_feed (B : Block) {i : Instr} (hi : i.op ≠ 4) (data : BitVec B.dataBits) :
    decodeFields B i.op data = i := by
  cases i with
  | feed x => exact absurd rfl hi
  | size | coef | vsym | new | hist | stat | reserved7 => rfl

theorem decodeFields_feed (B : Block) (data : BitVec B.dataBits) :
    decodeFields B 4 data = .feed (sampleField B data).toNat := rfl

theorem Instr.wf_feed_iff (B : Block) (x : Nat) : (Instr.feed x).wf B = true ↔ x < 2 ^ B.fmt.wT := decide_eq_true_iff

/-- Every sample's code is a well-formed operand. -/
theorem Instr.wf_feed_toNat (B : Block) (v : B.Sample) : (Instr.feed v.toNat).wf B = true :=
  (Instr.wf_feed_iff B _).2 v.isLt

theorem Instr.wf_of_op_ne_feed (B : Block) {i : Instr} (hi : i.op ≠ 4) : i.wf B = true := by
  cases i with
  | feed x => exact absurd rfl hi
  | size | coef | vsym | new | hist | stat | reserved7 => rfl

/-- FEED's operand is `data[W_T-1:0]`: the sample is no wider than the data field. -/
theorem sampleField_eq_extractLsb' (B : Block) (data : BitVec B.dataBits) :
    sampleField B data = data.extractLsb' 0 B.fmt.wT :=
  BitVec.setWidth_eq_extractLsb' B.wT_le_dataBits

/-- What the decoder yields has the word's op, is well formed, and depends on FEED's operand bits at most. -/
theorem decodeFields_spec (B : Block) (op : BitVec 3) (data : BitVec B.dataBits) :
    (decodeFields B op data).op = op ∧ (decodeFields B op data).wf B = true ∧
    ∀ data', (op ≠ 4 ∨ sampleField B data' = sampleField B data) →
      decodeFields B op data' = decodeFields B op data := by
  by_cases hop : op = 4
  · subst hop
    refine ⟨rfl, Instr.wf_feed_toNat B _, fun data' h => ?_⟩
    rw [decodeFields_feed, decodeFields_feed, h.resolve_left (absurd rfl)]
  · obtain ⟨i, rfl⟩ := exists_instr_of_op op
    have hdec : ∀ data, decodeFields B i.op data = i := decodeFields_of_op_ne_feed B hop
    simp only [hdec, Instr.wf_of_op_ne_feed B hop, implies_true, and_self]

/-- Settles O3: `decodeFields_spec` on the two fields of the word. -/
theorem unusedDataBitsHaveNoEffect : Obligations.UnusedDataBitsHaveNoEffect := by
  refine ⟨fun B w w' hop hdata => ?_, fun B w hop => ?_⟩
  · obtain ⟨hdecoded, hwf, hcongr⟩ := decodeFields_spec B (opField B w) (dataField B w)
    simp only [← sampleField_eq_extractLsb'] at hdata
    refine ⟨?_, hdecoded, hwf⟩
    rw [decode, hop]
    exact hcongr _ hdata
  · rw [decode, hop, decodeFields_feed, sampleField_eq_extractLsb']

/-! ### Decode of encode -/

/-- The sample code FEED's data field was made from comes back whole: the data field has room for it. -/
theorem sampleField_encodeData_feed (B : Block) (x : Nat) :
    sampleField B (encodeData B (.feed x)) = BitVec.ofNat B.fmt.wT x := by
  rw [sampleField, encodeData, BitVec.setWidth_setWidth_of_le _ B.wT_le_dataBits, BitVec.setWidth_eq]

theorem decodeFields_encodeData (B : Block) (i : Instr) (hi : i.wf B = true) :
    decodeFields B i.op (encodeData B i) = i := by
  cases i with
  | feed x =>
    rw [Instr.op, decodeFields_feed, sampleField_encodeData_feed, BitVec.toNat_ofNat,
      Nat.mod_eq_of_lt ((Instr.wf_feed_iff B x).1 hi)]
  | size | coef | vsym | new | hist | stat | reserved7 => rfl

theorem decode_encode (B : Block) (i : Instr) (hi : i.wf B = true) : decode B (encode B i) = i := by
  rw [decode, encode, opField_packCommand, dataField_packCommand, decodeFields_encodeData B i hi]

/-- A word is decoded from the number it spells. -/
theorem decodeWord_toNat (B : Block) (w : BitVec B.cmdBits) : decodeWord B w.toNat = .ok (decode B w) := by
  rw [decodeWord, if_pos w.isLt, BitVec.ofNat_toNat, BitVec.setWidth_eq]

/-- Settles O2: the packed fields come back, the op names the command, and the data field FEED's sample code. -/
theorem decodeOfEncodeIsTheCommand : Obligations.DecodeOfEncodeIsTheCommand := by
  intro B i hi
  rw [decodeWord_toNat, decode_encode B i hi]
  exact ⟨rfl, rfl⟩

/-- Settles O1, by running the decoder on the nine written-out words. -/
theorem tableWordsDecodeToTheirCommands : Obligations.TableWordsDecodeToTheirCommands := by
  unfold Obligations.TableWordsDecodeToTheirCommands
  decide

end Sys2Proof
end

section
/-! The pseudo-instructions of the text form (30_encoding.md R95). -/

namespace Sys2Proof.Machine

/-- One-element lists joined again: a list of results either way, or a failure either way. -/
theorem mapM_map_singleton_flatten {α β γ : Type} (f : α → Option β) (g : β → γ) (xs : List α) :
    (xs.mapM fun x => (f x).map fun y => [g y]).map List.flatten = (xs.mapM f).map (List.map g) := by
  induction xs with
  | nil => rfl
  | cons x xs ih =>
    rw [List.mapM_cons, List.mapM_cons]
    cases f x with
    | none => rfl
    | some y =>
      simpa [Option.map_bind, Option.bind_map, Function.comp_def]
        using congrArg (Option.bind · (some <| g y :: ·)) ih

theorem AsmLine.words_feeds (B : Block) (xs : List Literal) :
    (AsmLine.feeds xs).words B = (xs.mapM fun x => (AsmLine.feed x).words B).map List.flatten :=
  (mapM_map_singleton_flatten (feedOf B) (encode B) xs).symm

theorem AsmLine.words_raw (B : Block) {op data : Nat} (hop : op < 8) (hdata : data < 2 ^ B.dataBits) :
    (AsmLine.raw op data).words B = some [packCommand B (BitVec.ofNat 3 op) (BitVec.ofNat B.dataBits data)] :=
  if_pos ⟨hop, hdata⟩

/-- Settles O52: `FEEDS` by induction on its literals, `FLUSH` and `.cmd` by the decoder's inverse laws. -/
theorem pseudoInstructionsExpandToCommands : Obligations.PseudoInstructionsExpandToCommands := by
  refine ⟨AsmLine.words_feeds, fun B => ?_, fun B op data hop hdata => ⟨_, AsmLine.words_raw B hop hdata, ?_, ?_⟩⟩
  · have hzero : decode B (encode B (.feed B.fmt.zero.toNat)) = .feed B.fmt.zero.toNat :=
      decode_encode B _ (Instr.wf_feed_toNat B _)
    rw [AsmLine.words, Option.map_some, List.map_replicate, hzero]
  · rw [opField_packCommand, BitVec.toNat_ofNat, Nat.mod_eq_of_lt hop]
  · rw [dataField_packCommand, BitVec.toNat_ofNat, Nat.mod_eq_of_lt hdata]

end Sys2Proof.Machine
end

section
/-! The port: acceptance is `exec`, a beat on offer stands, and an accepted command's response is delivered whole
(30_encoding.md R100 to R103). -/

namespace Sys2Proof.Machine

/-! ### The pins -/

theorem Port.out_cmdReady_iff (p : Port) : p.out.cmdReady = true ↔ p.delivery = none := Option.isNone_iff_eq_none

theorem Delivery.offered_eq_some {w : Nat} {d : Delivery w} {b : Beat} (h : d.offered = some b) : d.wait = 0 := by
  by_contra hwait
  rw [Delivery.offered, if_neg hwait] at h
  cases h

/-- A delivery whose latency is over stands while the host does not take its beat. -/
theorem Delivery.edge_stall {w : Nat} {d : Delivery w} (h : d.wait = 0) : d.edge false = some d := by
  obtain ⟨wait, st, b, bs⟩ := d
  obtain rfl : wait = 0 := h
  exact Delivery.edge_hold st b bs

/-! ### Acceptance -/

theorem Port.accept_of_exec {p : Port} {c : Instr} {t : State} (h : exec c p.core = .next t) :
    p.accept c = ⟨t, t.rsp.bind (Delivery.begin (latencyOf t.cfg c))⟩ := by
  simp only [Port.accept, h]

/-- A free port at an edge with a command on the pins. -/
theorem Port.edge_accept {p : Port} {i : PortIn} {t : State} (hfree : p.delivery = none) (hrst : i.rst = false)
    (hvalid : i.cmdValid = true) (h : exec (p.offeredCommand i) p.core = .next t) :
    p.edge i = ⟨t, t.rsp.bind (Delivery.begin (latencyOf t.cfg (p.offeredCommand i)))⟩ := by
  rw [Port.edge_free p i hfree hrst, if_pos hvalid, Port.accept_of_exec h]

/-- Settles O47: a free port moves by `exec`, which always has a next state; a busy one goes on with its response. -/
theorem portAcceptsOneCommandAtATime : Obligations.PortAcceptsOneCommandAtATime := by
  intro p i
  refine ⟨(Option.not_isNone p.delivery).symm, fun hrst hready hvalid => ?_, fun hrst hstill => ?_⟩
  · obtain ⟨t, ht⟩ := exec_next (p.offeredCommand i) p.core
    rw [ht, Port.edge_accept (p.out_cmdReady_iff.1 hready) hrst hvalid ht]
  · cases hd : p.delivery with
    | some d => rw [Port.edge_busy p i d hd hrst]
    | none =>
      have hvalid : i.cmdValid = false := hstill.resolve_left (by simp [p.out_cmdReady_iff.2 hd])
      rw [Port.edge_free p i hd hrst, hvalid, if_neg Bool.false_ne_true]

/-- Settles O48: a beat is on offer only once the latency is over, and then an edge that does not take it changes nothing. -/
theorem portHoldsABeatUntilItIsTaken : Obligations.PortHoldsABeatUntilItIsTaken := by
  intro p i b hb hrst hready
  obtain ⟨d, hd, hoffered⟩ := Option.bind_eq_some_iff.1 hb
  have hedge : p.edge i = p := by
    rw [Port.edge_busy p i d hd hrst, hready, Delivery.edge_stall (Delivery.offered_eq_some hoffered), ← hd]
  rw [hedge]
  exact ⟨hb, rfl⟩

/-! ### Delivery -/

/-- A command's response has a first beat: it is one beat, or `N` of them (30_encoding.md R90, R91). -/
theorem exec_rsp_beats_ne_nil {i : Instr} {s t : State} (h : exec i s = .next t) (r : Response t.cfg.dataBits)
    (hr : t.rsp = some r) : r.beats ≠ [] := by
  obtain ⟨-, rfl⟩ | ⟨f, beats, -, hlen, rfl⟩ | ⟨c, -, -, rfl⟩ := exec_cases h
  · obtain rfl := Option.some.inj hr
    exact List.cons_ne_nil _ _
  · obtain rfl := Option.some.inj hr
    have hpos : 0 < beats.length := hlen.elim (· ▸ Nat.one_pos) (· ▸ s.cfg.n_pos)
    exact List.ne_nil_of_length_pos hpos
  · obtain rfl := Option.some.inj hr
    exact List.cons_ne_nil _ _

section
variable (s : State) (st : Status) (b : BitVec s.cfg.dataBits) (bs : List (BitVec s.cfg.dataBits))
variable {e : PortIn} (es : List PortIn)

theorem Port.run_wait (k : Nat) (hrst : e.rst = false) :
    Port.run ⟨s, some ⟨k + 1, st, b, bs⟩⟩ (e :: es) = Port.run ⟨s, some ⟨k, st, b, bs⟩⟩ es := by
  rw [Port.run, Port.edge_busy _ e _ rfl hrst, Delivery.edge_wait]
  simp [Port.taken, Port.out, Delivery.offered]

theorem Port.run_hold (hrst : e.rst = false) (hready : e.rspReady = false) :
    Port.run ⟨s, some ⟨0, st, b, bs⟩⟩ (e :: es) = Port.run ⟨s, some ⟨0, st, b, bs⟩⟩ es := by
  rw [Port.run, Port.edge_busy _ e _ rfl hrst, hready, Delivery.edge_hold]
  simp [Port.taken, hready]

/-- An edge that takes the beat on offer: it carries `last` where no other follows, and the next one is offered. -/
theorem Port.run_take (hrst : e.rst = false) (hready : e.rspReady = true) :
    Port.run ⟨s, some ⟨0, st, b, bs⟩⟩ (e :: es) =
      let rest := Port.run ⟨s, Delivery.begin 0 ⟨st, bs⟩⟩ es
      (rest.1, ⟨st.code, bs.isEmpty, b.toNat⟩ :: rest.2) := by
  have htaken : Port.taken ⟨s, some ⟨0, st, b, bs⟩⟩ e = [⟨st.code, bs.isEmpty, b.toNat⟩] := by
    simp [Port.taken, Port.out, Delivery.offered, hrst, hready]
  have hnext : (⟨0, st, b, bs⟩ : Delivery _).edge true = Delivery.begin 0 ⟨st, bs⟩ := by cases bs <;> rfl
  rw [Port.run, htaken, Port.edge_busy _ e _ rfl hrst, hready, hnext]
  rfl

end

/-- The host is ready at the last edge. -/
def ReadyLast (ins : List PortIn) : Prop := ins.getLast?.map PortIn.rspReady = some true

theorem ReadyLast.countP_pos {ins : List PortIn} (h : ReadyLast ins) : 0 < ins.countP PortIn.rspReady := by
  obtain ⟨e, he, hready⟩ := Option.map_eq_some_iff.1 h
  exact List.countP_pos_iff.2 ⟨e, List.mem_of_getLast? he, hready⟩

theorem ReadyLast.tail {e : PortIn} {es : List PortIn} (h : ReadyLast (e :: es)) (hes : es ≠ []) : ReadyLast es := by
  rwa [ReadyLast, List.getLast?_cons_of_ne_nil hes] at h

/-- A beat that is still to be taken is taken at a later edge. -/
theorem ReadyLast.tail_of_drop {e : PortIn} {es : List PortIn} {k n : Nat} (h : ReadyLast (e :: es))
    (hcount : (es.drop k).countP PortIn.rspReady = n + 1) : ReadyLast es :=
  h.tail (by rintro rfl; simp at hcount)

/-- A response in progress is delivered whole and in order (30_encoding.md R90, R102, R103): the edges run down the latency,
hold the beat on offer, or take it. -/
theorem Port.run_delivery (s : State) (st : Status) (ins : List PortIn) (k : Nat) (b : BitVec s.cfg.dataBits)
    (bs : List (BitVec s.cfg.dataBits)) (hrst : ∀ e ∈ ins, e.rst = false)
    (hcount : (ins.drop k).countP PortIn.rspReady = bs.length + 1) (hlast : ReadyLast ins) :
    Port.run ⟨s, some ⟨k, st, b, bs⟩⟩ ins = (⟨s, none⟩, beatsOf st (b :: bs)) := by
  induction ins generalizing k b bs with
  | nil => cases hlast
  | cons e es ih =>
    obtain ⟨he, hes⟩ := List.forall_mem_cons.1 hrst
    cases k with
    | succ k =>
      rw [List.drop_succ_cons] at hcount
      rw [Port.run_wait s st b bs es k he]
      exact ih k b bs hes hcount (hlast.tail_of_drop hcount)
    | zero =>
      rw [List.drop_zero, List.countP_cons] at hcount
      cases hready : e.rspReady with
      | false =>
        replace hcount : es.countP PortIn.rspReady = bs.length + 1 := by simpa [hready] using hcount
        rw [Port.run_hold s st b bs es he hready]
        exact ih 0 b bs hes hcount (hlast.tail_of_drop (k := 0) hcount)
      | true =>
        replace hcount : es.countP PortIn.rspReady = bs.length := by simpa [hready] using hcount
        rw [Port.run_take s st b bs es he hready]
        cases bs with
        | nil =>
          have hend : es = [] := by
            by_contra hne
            exact (hlast.tail hne).countP_pos.ne' hcount
          subst hend
          rfl
        | cons b' bs =>
          have hrest := ih 0 b' bs hes hcount (hlast.tail_of_drop (k := 0) hcount)
          simp only [Delivery.begin, hrest, beatsOf]

/-- A port that has accepted a command delivers the response of the state `t` it has moved to. -/
theorem Port.run_response {t : State} {r : Response t.cfg.dataBits} (hrsp : t.rsp = some r) (hne : r.beats ≠ [])
    (k : Nat) (ins : List PortIn) (hrst : ∀ e ∈ ins, e.rst = false)
    (hcount : (ins.drop k).countP PortIn.rspReady = r.beats.length) (hlast : ReadyLast ins) :
    Port.run ⟨t, t.rsp.bind (Delivery.begin k)⟩ ins = (⟨t, none⟩, beatsOf r.status r.beats) := by
  obtain ⟨st, beats⟩ := r
  obtain ⟨b, bs, rfl⟩ := List.exists_cons_of_ne_nil hne
  rw [hrsp]
  exact Port.run_delivery t st ins k b bs hrst hcount hlast

/-- Settles O49: the edge of acceptance is `exec`, its response is not empty, and `Port.run_response` delivers it. -/
theorem portDeliversTheWholeResponse : Obligations.PortDeliversTheWholeResponse := by
  intro p i r ins hfree hrst hvalid hrsp hins hcount hlast
  obtain ⟨t, ht⟩ := exec_next (p.offeredCommand i) p.core
  have hedge := Port.edge_accept hfree hrst hvalid ht
  generalize p.edge i = q at r hedge hrsp hcount ⊢
  subst hedge
  rw [← (exec_sameOutside ht).cfg_eq] at hcount
  rw [Port.run_response hrsp (exec_rsp_beats_ne_nil ht r hrsp) _ ins hins hcount hlast]
  exact ⟨rfl, rfl, rfl⟩

end Sys2Proof.Machine
end

section
/-! Values in a data field, and the coefficient table commands SIZE, COEF and VSYM (40_coefficient_table.md). -/

namespace Sys2Proof

/-- The data field is wide enough for the tap count (00_scope.md R9). -/
theorem Block.n_lt_two_pow_dataBits (B : Block) : B.n < 2 ^ B.dataBits :=
  calc B.n < B.n + 1 := Nat.lt_succ_self _
    _ ≤ 2 ^ B.sizeBits := le_two_pow_ceilLog2 _
    _ ≤ 2 ^ B.dataBits := Nat.pow_le_pow_right Nat.two_pos B.sizeBits_le_dataBits

end Sys2Proof

namespace Sys2Proof.Machine

/-! ### Values in a data field -/

/-- A coefficient crosses the interface unchanged: it is no wider than the data field (30_encoding.md R83). -/
@[simp] theorem coefBeat_toNat (B : Block) (c : B.Coef) : (coefBeat B c).toNat = c.toNat :=
  BitVec.toNat_setWidth_of_le B.wC_le_dataBits

@[simp] theorem natBeat_n_toNat (B : Block) : (natBeat B B.n).toNat = B.n :=
  (BitVec.toNat_ofNat _ _).trans (Nat.mod_eq_of_lt B.n_lt_two_pow_dataBits)

/-! ### The table -/

/-- Reading the table at every index in increasing order gives the configured list. -/
theorem map_table_get (B : Block) : (List.finRange B.n).map B.table.get = B.coef :=
  List.ext_getElem (by simp [B.coef_length]) fun k _ _ => by simp [table_get]

/-- The beats of COEF, as numbers, are the configured encodings in index order. -/
theorem coefBeats_toNat (B : Block) :
    ((List.finRange B.n).map fun k => coefBeat B (B.table.get k)).map BitVec.toNat = B.coef.map BitVec.toNat :=
  calc ((List.finRange B.n).map fun k => coefBeat B (B.table.get k)).map BitVec.toNat
      = ((List.finRange B.n).map B.table.get).map BitVec.toNat := by simp [Function.comp_def]
    _ = B.coef.map BitVec.toNat := by rw [map_table_get]

/-! ### SIZE and COEF -/

/-- Settles O7: the tap count fits the data field. -/
theorem sizeRespondsWithTheTapCount : Obligations.SizeRespondsWithTheTapCount :=
  ⟨fun B data => decodeFields_of_op_ne_feed B (i := .size) (by decide) data,
    fun s hf => ⟨(exec_size s).trans (unlessFaulted_of_clear s _ hf), natBeat_n_toNat s.cfg, s.cfg.n_pos⟩⟩

/-- Settles O8: reading the table in index order gives the configured list, and no coefficient is cut. -/
theorem coefRespondsWithTheTable : Obligations.CoefRespondsWithTheTable :=
  ⟨fun B data => decodeFields_of_op_ne_feed B (i := .coef) (by decide) data,
    fun s hf => ⟨_, (exec_coef s).trans (unlessFaulted_of_clear s _ hf), coefBeats_toNat s.cfg, by simp⟩⟩

/-- Settles O18: the tap count, which SIZE sends, is the length of the table, of the window and of the history. -/
theorem sizeCountsTheBeatsOfCoefAndHist : Obligations.SizeCountsTheBeatsOfCoefAndHist := by
  intro s hf
  have clear (run : State → State) : unlessFaulted s run = .next (run s) := unlessFaulted_of_clear s run hf
  exact ⟨_, _, _, (exec_size s).trans (clear _), (exec_coef s).trans (clear _), (exec_hist s).trans (clear _),
    by simp, by simp, by simp⟩

/-! ### The symmetry check -/

/-- The check decides the symmetry of 40_coefficient_table.md R115. -/
theorem palindromic_eq_true_iff (B : Block) : palindromic B = true ↔ B.Palindromic := by
  refine (CoefOps.palindromic_iff _ _).trans ⟨fun h i j hi hj => ?_, fun h i hi => h i (mirrored i) hi rfl⟩
  obtain rfl : j = mirrored i := Fin.ext hj
  exact h i hi

/-- A cause code crosses the interface as its number. -/
theorem causeBeat_eq_ofNat (B : Block) (code : BitVec 3) : causeBeat B code = BitVec.ofNat B.dataBits code.toNat :=
  (BitVec.ofNat_toNat _ _).symm

/-- Settles O9: VSYM branches on the check, which decides `Block.Palindromic`. -/
theorem vsymPassesExactlyOnPalindromes : Obligations.VsymPassesExactlyOnPalindromes := by
  refine ⟨fun B data => decodeFields_of_op_ne_feed B (i := .vsym) (by decide) data, fun s hf => ?_⟩
  rw [exec_vsym, unlessFaulted_of_clear s _ hf, ← palindromic_eq_true_iff]
  refine ⟨fun hpal => ?_, fun hpal => ?_⟩
  · rw [if_pos hpal]
    rfl
  · rw [if_neg hpal, State.raise, causeBeat_eq_ofNat]
    rfl

/-- The check reads no element that is its own mirror image: two tables that agree elsewhere get one verdict. -/
theorem CoefOps.palindromic_congr {C : Type} {n : Nat} (ops : CoefOps C) {coef coef' : Vector C n}
    (h : ∀ i : Fin n, n ≠ 2 * i.val + 1 → coef.get i = coef'.get i) :
    ops.palindromic coef = ops.palindromic coef' := by
  rw [Bool.eq_iff_iff, ops.palindromic_iff, ops.palindromic_iff]
  refine forall_congr' fun i => imp_congr_right fun hi => ?_
  have hmirror : n ≠ 2 * (mirrored i).val + 1 := by
    rw [mirrored_val]
    omega
  rw [h i (by omega), h (mirrored i) hmirror]

/-- With one tap there is no pair to compare. -/
theorem CoefOps.palindromic_of_n_eq_one {C : Type} {n : Nat} (ops : CoefOps C) (coef : Vector C n) (hn : n = 1) :
    ops.palindromic coef = true :=
  (ops.palindromic_iff coef).2 fun i hi => by omega

/-- Settles O10: the check does not read index `m` of `2m+1`, the only index at which the two tables may differ. -/
theorem middleCoefficientIsNotCompared : Obligations.MiddleCoefficientIsNotCompared := by
  refine ⟨fun B m c h hn => ?_, fun B hn => CoefOps.palindromic_of_n_eq_one _ _ hn⟩
  refine CoefOps.palindromic_congr _ fun i hi => ?_
  have hne : m ≠ i.val := fun e => hi (e ▸ hn)
  rw [table_get, table_get, List.getElem_set_ne hne]

end Sys2Proof.Machine
end

section
/-! `F32` equality: a pattern's magnitude determines its exponent and significand, so two patterns of one value differ in the
sign of a zero at most. -/

namespace Sys2Proof.Machine

/-- A pattern read by its fields (30_encoding.md R84). -/
theorem F32.toNat_eq_fields (b : BitVec 32) :
    b.toNat = (if F32.sign b then 2 ^ 31 else 0) + F32.expField b * 2 ^ 23 + F32.frac b := by
  have hlt := b.isLt
  have hsign : F32.sign b = decide (b.toNat / 2 ^ 31 = 1) := by
    rw [F32.sign, Bool.eq_iff_iff, beq_iff_eq, decide_eq_true_eq, ← BitVec.toNat_inj]
    simp only [BitVec.extractLsb'_toNat, BitVec.toNat_ofNat, Nat.shiftRight_eq_div_pow]
    omega
  rw [hsign, F32.expField_eq, F32.frac_eq]
  by_cases h : b.toNat / 2 ^ 31 = 1
  · simp only [h, decide_true, if_true]
    omega
  · simp only [h, decide_false, Bool.false_eq_true, if_false]
    omega

/-- Two patterns with the same fields are one pattern. -/
theorem F32.ext_fields {a b : BitVec 32} (hsign : F32.sign a = F32.sign b) (hexp : F32.expField a = F32.expField b)
    (hfrac : F32.frac a = F32.frac b) : a = b :=
  BitVec.eq_of_toNat_eq (by rw [F32.toNat_eq_fields a, F32.toNat_eq_fields b, hsign, hexp, hfrac])

theorem F32.magnitude_of_subnormal {b : BitVec 32} (h : F32.expField b = 0) : F32.magnitude b = F32.frac b := if_pos h

theorem F32.magnitude_of_normal {b : BitVec 32} {e : Nat} (h : F32.expField b = e + 1) :
    F32.magnitude b = (2 ^ 23 + F32.frac b) * 2 ^ e := by
  rw [F32.magnitude, if_neg (by omega), h, Nat.add_sub_cancel]

/-- A magnitude lies below its binade's upper end. -/
theorem F32.magnitude_lt (b : BitVec 32) : F32.magnitude b < 2 ^ (F32.expField b + 23) := by
  have hfrac := F32.frac_lt b
  cases h : F32.expField b with
  | zero => simpa [F32.magnitude_of_subnormal h] using hfrac
  | succ e =>
    calc F32.magnitude b = (2 ^ 23 + F32.frac b) * 2 ^ e := F32.magnitude_of_normal h
      _ < 2 ^ 24 * 2 ^ e := Nat.mul_lt_mul_of_pos_right (by omega) (Nat.two_pow_pos e)
      _ = 2 ^ (e + 1 + 23) := by ring

/-- A normal magnitude lies at or above its binade's lower end. -/
theorem F32.le_magnitude {b : BitVec 32} {e : Nat} (h : F32.expField b = e + 1) : 2 ^ (e + 23) ≤ F32.magnitude b :=
  calc 2 ^ (e + 23) = 2 ^ 23 * 2 ^ e := by ring
    _ ≤ (2 ^ 23 + F32.frac b) * 2 ^ e := Nat.mul_le_mul_right _ (Nat.le_add_right _ _)
    _ = F32.magnitude b := (F32.magnitude_of_normal h).symm

/-- The binades are in the order of the exponents. -/
theorem F32.magnitude_lt_of_expField_lt {a b : BitVec 32} (h : F32.expField a < F32.expField b) :
    F32.magnitude a < F32.magnitude b := by
  obtain ⟨e, he⟩ := Nat.exists_eq_add_of_lt h
  calc F32.magnitude a < 2 ^ (F32.expField a + 23) := F32.magnitude_lt a
    _ ≤ 2 ^ (F32.expField a + e + 23) := Nat.pow_le_pow_right Nat.two_pos (by omega)
    _ ≤ F32.magnitude b := F32.le_magnitude he

/-- The magnitude determines every bit but the sign: the binade is the exponent, the place in it the significand. -/
theorem F32.eq_of_magnitude_eq {a b : BitVec 32} (hsign : F32.sign a = F32.sign b)
    (hmag : F32.magnitude a = F32.magnitude b) : a = b := by
  have hexp : F32.expField a = F32.expField b := by
    obtain h | h | h := Nat.lt_trichotomy (F32.expField a) (F32.expField b)
    · exact absurd hmag (F32.magnitude_lt_of_expField_lt h).ne
    · exact h
    · exact absurd hmag (F32.magnitude_lt_of_expField_lt h).ne'
  refine F32.ext_fields hsign hexp ?_
  cases h : F32.expField b with
  | zero => rwa [F32.magnitude_of_subnormal (hexp.trans h), F32.magnitude_of_subnormal h] at hmag
  | succ e =>
    rw [F32.magnitude_of_normal (hexp.trans h), F32.magnitude_of_normal h] at hmag
    exact Nat.add_left_cancel (Nat.mul_right_cancel (Nat.two_pow_pos e) hmag)

@[simp] theorem F32.natAbs_units (b : BitVec 32) : (F32.units b).natAbs = F32.magnitude b := by
  rw [F32.units]
  split
  · exact (Int.natAbs_neg _).trans (Int.natAbs_natCast _)
  · exact Int.natAbs_natCast _

theorem F32.units_eq_zero_iff (b : BitVec 32) : F32.units b = 0 ↔ F32.magnitude b = 0 := by
  rw [← Int.natAbs_eq_zero, F32.natAbs_units]

/-- Two patterns of one magnitude and opposite signs have opposite values. -/
theorem F32.units_eq_neg_of_sign_ne {a b : BitVec 32} (hsign : F32.sign a ≠ F32.sign b)
    (hmag : F32.magnitude a = F32.magnitude b) : F32.units a = -F32.units b := by
  rw [F32.units, F32.units, hmag, Bool.eq_not.2 hsign]
  cases F32.sign b with
  | true => simp
  | false => simp

/-- Two patterns have one value exactly when they are one pattern or two zeros. -/
theorem F32.units_eq_iff (a b : BitVec 32) :
    F32.units a = F32.units b ↔ a = b ∨ F32.magnitude a = 0 ∧ F32.magnitude b = 0 := by
  refine ⟨fun h => ?_, ?_⟩
  · have hmag : F32.magnitude a = F32.magnitude b := by rw [← F32.natAbs_units, h, F32.natAbs_units]
    by_cases hsign : F32.sign a = F32.sign b
    · exact .inl (F32.eq_of_magnitude_eq hsign hmag)
    · have hneg := F32.units_eq_neg_of_sign_ne hsign hmag
      have hzero : F32.magnitude b = 0 := (F32.units_eq_zero_iff b).1 (by omega)
      exact .inr ⟨hmag.trans hzero, hzero⟩
  · rintro (rfl | ⟨ha, hb⟩)
    · rfl
    · rw [(F32.units_eq_zero_iff a).2 ha, (F32.units_eq_zero_iff b).2 hb]

theorem F32.isNaN_of_isFinite {b : BitVec 32} (h : F32.isFinite b = true) : F32.isNaN b = false := by
  simp only [F32.isFinite, bne_iff_ne] at h
  simp [F32.isNaN, h]

/-- On finite patterns, IEEE equality is equality of values. -/
theorem F32.eq_iff_units_eq {a b : BitVec 32} (ha : F32.isFinite a = true) (hb : F32.isFinite b = true) :
    F32.eq a b = true ↔ F32.units a = F32.units b := by
  rw [F32.units_eq_iff]
  simp [F32.eq, F32.isNaN_of_isFinite ha, F32.isNaN_of_isFinite hb]

/-- Settles O46: the two zeros are finite patterns of the value 0, and the check on NaNs comes first on both sides. -/
theorem f32EqualityComparesValues : Obligations.F32EqualityComparesValues :=
  ⟨fun _ _ ha hb => F32.eq_iff_units_eq ha hb, by decide, fun a b ha => by simp [F32.eq, ha]⟩

end Sys2Proof.Machine
end

section
/-! The convolution as a sequence of accumulators (41_feed.md R134): every loop that starts at `zero` and takes one
multiply-accumulate step for each tap in order ends at FEED's response. -/

namespace Sys2Proof.Machine

/-- A loop over `0, ..., k-1` that takes each `a i` to `a (i+1)` takes `a 0` to `a k`. -/
theorem foldl_finRange_of_step {α : Type} (a : Nat → α) {k : Nat} {g : α → Fin k → α}
    (h : ∀ i : Fin k, g (a i.val) i = a (i.val + 1)) : (List.finRange k).foldl g (a 0) = a k := by
  induction k with
  | zero => rfl
  | succ k ih =>
    rw [List.finRange_succ_last, List.foldl_append, List.foldl_map, ih fun i => h i.castSucc]
    exact h (Fin.last k)

/-- The accumulator of 41_feed.md R134 before step `k`: `zero` first, and no step after the last tap. -/
def RingFilter.accAt {T C : Type} {n : Nat} (ops : SampleOps T C) (coef : Vector C n) (f : RingFilter T n) : Nat → T
  | 0 => ops.zero
  | k + 1 => if h : k < n then f.mac ops coef (f.accAt ops coef k) ⟨k, h⟩ else f.accAt ops coef k

section
variable {T C : Type} {n : Nat} (ops : SampleOps T C) (coef : Vector C n) (f : RingFilter T n)

theorem RingFilter.accAt_succ (j : Fin n) :
    f.accAt ops coef (j.val + 1) = f.mac ops coef (f.accAt ops coef j.val) j :=
  dif_pos j.isLt

theorem RingFilter.output_eq_accAt : f.output ops coef = f.accAt ops coef n :=
  foldl_finRange_of_step (f.accAt ops coef) fun j => (f.accAt_succ ops coef j).symm

theorem RingFilter.chainOutput_eq_output : f.chainOutput ops coef = f.output ops coef := by
  rw [RingFilter.chainOutput, RingFilter.terms, List.foldl_map]
  rfl

/-- Up to the physical end of the buffer, offset `i` from the cursor does not wrap. -/
theorem RingFilter.slot_of_lt (i : Nat) (h : f.cursor.val + i < n) :
    f.slot ⟨i, by omega⟩ = f.history.get ⟨f.cursor.val + i, h⟩ :=
  congrArg f.history.get (Fin.ext (Nat.mod_eq_of_lt h))

/-- Past the physical end, the offsets go on from the physical start. -/
theorem RingFilter.slot_wrapped (i : Nat) (h : i < f.cursor.val) :
    f.slot ⟨n - f.cursor.val + i, by omega⟩ = f.history.get ⟨i, by omega⟩ := by
  refine congrArg f.history.get (Fin.ext ?_)
  have hsum : f.cursor.val + (n - f.cursor.val + i) = i + n := by omega
  rw [circular_val, hsum, Nat.add_mod_right, Nat.mod_eq_of_lt (by omega)]

theorem RingFilter.firstRange_eq_accAt : f.firstRange ops coef = f.accAt ops coef (n - f.cursor.val) :=
  foldl_finRange_of_step (f.accAt ops coef) fun i => by
    rw [f.accAt_succ ops coef ⟨i.val, by omega⟩, RingFilter.mac, RingFilter.term, f.slot_of_lt i.val (by omega)]

theorem RingFilter.twoRangeOutput_eq_output : f.twoRangeOutput ops coef = f.output ops coef := by
  have hend : n - f.cursor.val + f.cursor.val = n := by omega
  rw [RingFilter.twoRangeOutput, RingFilter.firstRange_eq_accAt, RingFilter.output_eq_accAt]
  refine (foldl_finRange_of_step (fun i => f.accAt ops coef (n - f.cursor.val + i)) fun i => ?_).trans
    (congrArg (f.accAt ops coef) hend)
  rw [← Nat.add_assoc, f.accAt_succ ops coef ⟨n - f.cursor.val + i.val, by omega⟩, RingFilter.mac, RingFilter.term,
    f.slot_wrapped i.val i.isLt]

/-- The registers of the sequential implementation on `f` before micro-step `k` (41_feed.md R147). -/
def RingFilter.macAt (k : Nat) : SequentialMac T n where
  filter := f
  idx := f.cursor
  acc := f.accAt ops coef k
  j := k

theorem RingFilter.microStep_macAt {k : Nat} (h : k < n) :
    (f.macAt ops coef k).microStep ops coef = f.macAt ops coef (k + 1) := by
  rw [SequentialMac.microStep, RingFilter.macAt, dif_pos h, RingFilter.macAt, f.accAt_succ ops coef ⟨k, h⟩]
  rfl

theorem RingFilter.run_macAt (k j : Nat) (h : j + k ≤ n) :
    SequentialMac.run ops coef k (f.macAt ops coef j) = f.macAt ops coef (j + k) := by
  induction k generalizing j with
  | zero => rfl
  | succ k ih =>
    rw [SequentialMac.run, RingFilter.microStep_macAt ops coef f (by omega), ih (j + 1) (by omega),
      Nat.add_right_comm, Nat.add_assoc]

theorem RingFilter.acceptFeed_eq_macAt (x : T) :
    f.acceptFeed ops x = (f.store x).advance.macAt ops coef 0 := rfl

end

/-- Settles O31: each loop runs the accumulators of R134 over its own range of taps. -/
theorem twoRangeFormComputesTheSameFold : Obligations.TwoRangeFormComputesTheSameFold :=
  fun _ _ _ ops coef f => f.twoRangeOutput_eq_output ops coef

/-- Settles O32: a fold over mapped terms is the fold that maps as it goes. -/
theorem adderChainComputesTheSameFold : Obligations.AdderChainComputesTheSameFold :=
  fun _ _ _ ops coef f => f.chainOutput_eq_output ops coef

/-- Settles O34: `k` micro-steps reach the accumulator before step `k`, and the one before step `N` is the response. -/
theorem sequentialMacGivesTheFeedResponse : Obligations.SequentialMacGivesTheFeedResponse := by
  intro T C n ops coef f x
  have hrun : SequentialMac.run ops coef n (f.acceptFeed ops x) = (f.store x).advance.macAt ops coef n := by
    rw [f.acceptFeed_eq_macAt ops coef, RingFilter.run_macAt ops coef _ n 0 (by omega), Nat.zero_add]
  simp only [hrun, RingFilter.feed_fst, RingFilter.feed_snd, RingFilter.output_eq_accAt, RingFilter.macAt, and_self]

/-- Settles O33: the one slot is overwritten, the cursor comes round to 0, and the fold has one step. -/
theorem oneTapFilterHasNoMemory : Obligations.OneTapFilterHasNoMemory := by
  intro T C ops coef f x
  have hhistory : (f.store x).history = #v[x] := Vector.ext fun i hi => by
    obtain rfl : i = f.cursor.val := by omega
    simp
  have hfilter : (f.store x).advance = ⟨#v[x], 0⟩ := by
    rw [RingFilter.advance, hhistory, Subsingleton.elim (nextCursor _) 0]
  rw [RingFilter.feed, hfilter]
  rfl

/-! ### FEED on the machine -/

theorem sampleBeat_toNat (B : Block) (v : B.Sample) : (sampleBeat B v).toNat = v.toNat :=
  BitVec.toNat_setWidth_of_le B.wT_le_dataBits

/-- FEED outside the fault state (41_feed.md R130): the filter's feed, its response in one OK beat. -/
theorem exec_feed_of_clear {s : State} (hf : s.fault = 0) (x : Nat) :
    exec (.feed x) s = .next { s with
      filter := (s.filter.feed (blockOps s.cfg) s.cfg.table (feedSample s.cfg x)).1
      rsp := some ⟨.ok,
        [sampleBeat s.cfg (s.filter.feed (blockOps s.cfg) s.cfg.table (feedSample s.cfg x)).2]⟩ } :=
  (exec_feed x s).trans (unlessFaulted_of_clear s _ hf)

/-- Settles O17: FEED's guard passes where `fault` is 0, and no command or step is without a next state. -/
theorem feedIsTotalAndNoCommandStops : Obligations.FeedIsTotalAndNoCommandStops :=
  ⟨fun _ x hf => ⟨_, _, exec_feed_of_clear hf x⟩, exec_next, step_next⟩

theorem decodeFields_feed_mod (B : Block) (data : BitVec B.dataBits) :
    decodeFields B 4 data = .feed (data.toNat % 2 ^ B.fmt.wT) := by
  rw [decodeFields_feed, sampleField, BitVec.toNat_setWidth]

/-- Settles O12: the accumulators are `accAt` of the filter that has stored and advanced. -/
theorem feedStoresAdvancesAndConvolves : Obligations.FeedStoresAdvancesAndConvolves := by
  refine ⟨decodeFields_feed_mod, fun s x hf => ?_⟩
  refine ⟨(s.filter.store (feedSample s.cfg x)).advance,
    (s.filter.store (feedSample s.cfg x)).advance.accAt (blockOps s.cfg) s.cfg.table, ?_, sampleBeat_toNat s.cfg _,
    s.filter.get_store_cursor _, s.filter.get_store_of_ne _, rfl, rfl, fun j i hi => ?_⟩
  · rw [exec_feed_of_clear hf, ← RingFilter.output_eq_accAt]
    rfl
  · obtain rfl : i = circular _ j := Fin.ext hi
    exact RingFilter.accAt_succ _ _ _ j

end Sys2Proof.Machine
end

section
/-! A sequence of feeds slides the window over the samples: from it the tapped delay line (41_feed.md R146), the time-domain
form (R136), and what follows from that form for particular operations. -/

namespace Sys2Proof.Machine

/-! ### The window -/

section
variable {T C : Type} {n : Nat} (ops : SampleOps T C) (coef : Vector C n) (f : RingFilter T n)

theorem RingFilter.window_fresh (hn : 0 < n) (z : T) : (RingFilter.fresh hn z).window = List.replicate n z := by
  refine List.ext_getElem (by simp) fun j _ _ => ?_
  rw [RingFilter.window_getElem, RingFilter.slot_fresh, List.getElem_replicate]

/-- A feed drops the oldest sample and appends the new one (41_feed.md R135). -/
theorem RingFilter.window_feed (x : T) : (f.feed ops coef x).1.window = f.window.drop 1 ++ [x] := by
  have hn := f.cursor.pos
  refine List.ext_getElem (by simp; omega) fun j _ _ => ?_
  simp only [RingFilter.feed_fst, RingFilter.window_getElem, RingFilter.slot_store_advance, List.getElem_append,
    List.length_drop, RingFilter.window_length, List.getElem_drop, List.getElem_singleton, Nat.add_comm 1,
    Nat.lt_sub_iff_add_lt]

/-- The convolution pairs the window with the table, oldest sample first: the output of a delay line that holds the
window. -/
theorem RingFilter.output_eq_delayLine_output :
    f.output ops coef = (⟨f.window⟩ : DelayLine T).output ops coef.toList := by
  have hcoef : coef.toList = (List.finRange n).map coef.get := by
    refine List.ext_getElem (by simp) fun j _ _ => ?_
    simp [Vector.get_eq_getElem]
  rw [DelayLine.output, hcoef, RingFilter.window, List.zip_map', List.foldl_map]
  rfl

/-- The ring buffer is a delay line that moves its cursor where the other moves its samples. -/
theorem RingFilter.delayLine_feedAll (xs : List T) :
    (⟨f.window⟩ : DelayLine T).feedAll ops coef.toList xs =
      (⟨(f.feedAll ops coef xs).1.window⟩, (f.feedAll ops coef xs).2) := by
  induction xs generalizing f with
  | nil => rfl
  | cons x xs ih =>
    have hshift : (⟨f.window⟩ : DelayLine T).shift x = ⟨(f.feed ops coef x).1.window⟩ := by
      rw [DelayLine.shift, RingFilter.window_feed]
    rw [DelayLine.feedAll, hshift, ih, ← RingFilter.output_eq_delayLine_output, RingFilter.feedAll_cons]
    rfl

/-- After any feeds the window is the last `n` samples of the old window followed by the samples fed. -/
theorem RingFilter.window_feedAll (xs : List T) :
    (f.feedAll ops coef xs).1.window = (f.window ++ xs).drop xs.length := by
  induction xs generalizing f with
  | nil => simp
  | cons x xs ih =>
    have hn : 1 ≤ f.window.length := f.window_length.symm ▸ f.cursor.pos
    rw [RingFilter.feedAll_cons, ih, RingFilter.window_feed, List.append_assoc, List.singleton_append,
      ← List.drop_append_of_le_length hn, List.drop_drop, List.length_cons, Nat.add_comm]

/-- Response `k` is the convolution of the filter that has been fed the samples up to `k`. -/
theorem RingFilter.feedAll_snd (xs : List T) :
    (f.feedAll ops coef xs).2 =
      (List.range xs.length).map fun k => (f.feedAll ops coef (xs.take (k + 1))).1.output ops coef := by
  induction xs generalizing f with
  | nil => rfl
  | cons x xs ih =>
    rw [RingFilter.feedAll_cons, ih, List.length_cons, List.range_succ_eq_map, List.map_cons, List.map_map]
    rfl

end

/-- Settles O29: the window slides, and the response is the output of a delay line that holds the window. -/
theorem feedPairsCoefficientsWithTheWindow : Obligations.FeedPairsCoefficientsWithTheWindow :=
  fun _ _ _ ops coef f x => ⟨f.window_feed ops coef x, RingFilter.output_eq_delayLine_output ops coef _⟩

/-- Settles O35: after reset the stages are the window. -/
theorem delayLineEqualsTheRingBuffer : Obligations.DelayLineEqualsTheRingBuffer := by
  intro T C n hn ops coef xs
  have hfresh : DelayLine.fresh n ops.zero = ⟨(RingFilter.fresh hn ops.zero).window⟩ := by
    rw [RingFilter.window_fresh]
    rfl
  rw [hfresh, RingFilter.delayLine_feedAll]
  exact ⟨rfl, rfl⟩

/-! ### The time-domain form -/

section
variable {T C : Type} {n : Nat} (ops : SampleOps T C) (coef : Vector C n) (hn : 0 < n)

/-- From reset, window position `j` after samples `0, ..., k` holds sample `k - (n-1) + j`. -/
theorem slot_feedAll_take_fresh (xs : List T) {k : Nat} (hk : k < xs.length) (j : Fin n) :
    ((RingFilter.fresh hn ops.zero).feedAll ops coef (xs.take (k + 1))).1.slot j =
      pastSample ops.zero xs ((k : Int) - ((n : Int) - 1) + (j.val : Int)) := by
  have hlen : (xs.take (k + 1)).length = k + 1 := List.length_take_of_le hk
  have hslot (f : RingFilter T n) : f.slot j = f.window[j.val]'(by simp) := (f.window_getElem j.val (by simp)).symm
  simp only [hslot, RingFilter.window_feedAll, hlen, RingFilter.window_fresh, List.getElem_drop]
  by_cases hold : k + 1 + j.val < n
  · rw [pastSample, if_pos (by omega), List.getElem_append_left (by simpa using hold), List.getElem_replicate]
  · have hm : ((k : Int) - ((n : Int) - 1) + (j.val : Int)).toNat = k + 1 + j.val - n := by omega
    rw [pastSample, if_neg (by omega), hm, List.getD_eq_getElem _ _ (by omega),
      List.getElem_append_right (by simpa using hold)]
    simp

theorem feedAll_fresh_snd (xs : List T) :
    ((RingFilter.fresh hn ops.zero).feedAll ops coef xs).2 =
      (List.range xs.length).map (timeDomainOutput ops coef xs) := by
  rw [RingFilter.feedAll_snd]
  refine List.map_congr_left fun k hk => ?_
  refine List.foldl_ext _ _ _ fun acc j _ => ?_
  rw [RingFilter.mac, RingFilter.term, slot_feedAll_take_fresh ops coef hn xs (List.mem_range.1 hk)]

end

/-- Settles O37: the convolution at step `k` reads the last `N` samples from the window. -/
theorem responsesHaveTheTimeDomainForm : Obligations.ResponsesHaveTheTimeDomainForm :=
  fun _ _ _ hn ops coef xs => feedAll_fresh_snd ops coef hn xs

/-! ### Operations lane by lane -/

/-- `φ` carries the operations of `ops` to those of `ops'`, on one coefficient type. -/
structure SampleOps.Preserves {T T' C : Type} (ops : SampleOps T C) (ops' : SampleOps T' C) (φ : T → T') : Prop where
  zero : φ ops.zero = ops'.zero
  add : ∀ a b, φ (ops.add a b) = ops'.add (φ a) (φ b)
  scale : ∀ h c, φ (ops.scale h c) = ops'.scale (φ h) c

section
variable {T T' C : Type} {n : Nat} {ops : SampleOps T C} {ops' : SampleOps T' C} {φ : T → T'}

theorem pastSample_map (zero : T) (xs : List T) (m : Int) :
    pastSample (φ zero) (xs.map φ) m = φ (pastSample zero xs m) := by
  unfold pastSample
  split
  · rfl
  · exact List.getD_map _ _ _

theorem timeDomainOutput_map (h : ops.Preserves ops' φ) (coef : Vector C n) (xs : List T) (k : Nat) :
    timeDomainOutput ops' coef (xs.map φ) k = φ (timeDomainOutput ops coef xs k) := by
  rw [timeDomainOutput, timeDomainOutput, ← h.zero]
  refine List.foldl_hom φ fun acc j => ?_
  rw [h.add, h.scale, pastSample_map]

/-- The responses of a filter, carried over, are those of a filter that is fed the samples carried over. -/
theorem map_feedAll_fresh_snd (h : ops.Preserves ops' φ) (hn : 0 < n) (coef : Vector C n) (xs : List T) :
    ((RingFilter.fresh hn ops.zero).feedAll ops coef xs).2.map φ =
      ((RingFilter.fresh hn ops'.zero).feedAll ops' coef (xs.map φ)).2 := by
  rw [feedAll_fresh_snd, feedAll_fresh_snd, List.map_map, List.length_map]
  exact List.map_congr_left fun k _ => (timeDomainOutput_map h coef xs k).symm

end

@[simp] theorem laneLow_pairOf {w : Nat} (a b : BitVec w) : laneLow (pairOf a b) = a := by
  rw [laneLow, pairOf, BitVec.extractLsb'_append_eq_right]

@[simp] theorem laneHigh_pairOf {w : Nat} (a b : BitVec w) : laneHigh (pairOf a b) = b := by
  rw [laneHigh, pairOf, BitVec.extractLsb'_append_eq_left]

theorem laneLow_preserves (lane : Format) : (formatOps (.pair lane)).Preserves (formatOps lane) laneLow :=
  ⟨laneLow_pairOf _ _, fun _ _ => laneLow_pairOf _ _, fun _ _ => laneLow_pairOf _ _⟩

theorem laneHigh_preserves (lane : Format) : (formatOps (.pair lane)).Preserves (formatOps lane) laneHigh :=
  ⟨laneHigh_pairOf _ _, fun _ _ => laneHigh_pairOf _ _, fun _ _ => laneHigh_pairOf _ _⟩

/-- Settles O41: each lane of a pair carries the pair's operations to the lane's. -/
theorem pairLanesAreIndependentFilters : Obligations.PairLanesAreIndependentFilters := by
  refine ⟨fun lane a b a' b' c => ⟨rfl, ?_, ?_⟩, fun lane n hn coef xs => ⟨?_, ?_⟩⟩
  · simp only [formatOps, formatAdd, laneLow_pairOf, laneHigh_pairOf]
  · simp only [formatOps, formatScale, laneLow_pairOf, laneHigh_pairOf]
  · exact map_feedAll_fresh_snd (laneLow_preserves lane) hn coef xs
  · exact map_feedAll_fresh_snd (laneHigh_preserves lane) hn coef xs

/-! ### Superposition -/

section
variable {T C : Type} {n : Nat} {ops : SampleOps T C}

/-- A fold of sums is the sum of the folds. -/
theorem SampleOps.Linear.foldl_add {ι : Type} (h : ops.Linear) (u v : ι → T) (l : List ι) (a b : T) :
    l.foldl (fun acc j => ops.add acc (ops.add (u j) (v j))) (ops.add a b) =
      ops.add (l.foldl (fun acc j => ops.add acc (u j)) a) (l.foldl (fun acc j => ops.add acc (v j)) b) := by
  induction l generalizing a b with
  | nil => rfl
  | cons j l ih =>
    have hswap : ops.add (ops.add a b) (ops.add (u j) (v j)) = ops.add (ops.add a (u j)) (ops.add b (v j)) := by
      rw [h.assoc, ← h.assoc b, h.comm b, h.assoc, ← h.assoc]
    rw [List.foldl_cons, hswap, ih, List.foldl_cons, List.foldl_cons]

theorem SampleOps.Linear.pastSample_zipWith (h : ops.Linear) {xs ys : List T} (hlen : xs.length = ys.length) (m : Int) :
    pastSample ops.zero (List.zipWith ops.add xs ys) m =
      ops.add (pastSample ops.zero xs m) (pastSample ops.zero ys m) := by
  unfold pastSample
  split
  · exact (h.neutral _).symm
  · by_cases hm : m.toNat < xs.length
    · have hys : m.toNat < ys.length := hlen ▸ hm
      rw [List.getD_eq_getElem _ _ hm, List.getD_eq_getElem _ _ hys,
        List.getD_eq_getElem _ _ (by simp [hm, hys]), List.getElem_zipWith]
    · have hxs : xs.length ≤ m.toNat := Nat.le_of_not_lt hm
      have hys : ys.length ≤ m.toNat := hlen ▸ hxs
      rw [List.getD_eq_default _ _ hxs, List.getD_eq_default _ _ hys,
        List.getD_eq_default _ _ (by simp [hxs]), h.neutral]

theorem SampleOps.Linear.timeDomainOutput_zipWith (h : ops.Linear) (coef : Vector C n) {xs ys : List T}
    (hlen : xs.length = ys.length) (k : Nat) :
    timeDomainOutput ops coef (List.zipWith ops.add xs ys) k =
      ops.add (timeDomainOutput ops coef xs k) (timeDomainOutput ops coef ys k) := by
  simp only [timeDomainOutput, h.pastSample_zipWith hlen, h.distrib]
  rw [← h.foldl_add, h.neutral]

end

/-- Settles O39: the time-domain form is additive; in `F32`, `2^24 + 1 + 1` is `2^24` from the left and `2^24 + 2` from the
right. -/
theorem superpositionHoldsForLinearOperations : Obligations.SuperpositionHoldsForLinearOperations := by
  refine ⟨fun T C n hn ops coef xs ys h hlen => ?_, ?_, fun h => ?_⟩
  · rw [feedAll_fresh_snd, feedAll_fresh_snd, feedAll_fresh_snd, ← hlen, List.length_zipWith, ← hlen, Nat.min_self,
      List.zipWith_map, List.zipWith_self]
    exact List.map_congr_left fun k _ => h.timeDomainOutput_zipWith coef hlen k
  · exact ⟨add_assoc, add_comm, zero_add, add_mul⟩
  · exact absurd (h.assoc 0x4B800000#32 0x3F800000#32 0x3F800000#32) (by decide)

/-! ### `EXACT` -/

section
variable {n : Nat} (coef : Vector ℚ n)

theorem timeDomainOutput_exact (xs : List ℚ) (k : Nat) :
    timeDomainOutput SampleOps.exact coef xs k =
      ∑ j : Fin n, pastSample 0 xs ((k : Int) - ((n : Int) - 1) + (j.val : Int)) * coef.get j := by
  rw [Fin.sum_univ_def, List.sum_eq_foldl, List.foldl_map]
  rfl

theorem pastSample_impulse (a : ℚ) (k : Nat) (m : Int) :
    pastSample 0 (a :: List.replicate k 0) m = if m = 0 then a else 0 := by
  rw [pastSample]
  rcases lt_trichotomy m 0 with hm | rfl | hm
  · rw [if_pos hm, if_neg hm.ne]
  · rfl
  · obtain ⟨i, hi⟩ : ∃ i, m.toNat = i + 1 := ⟨m.toNat - 1, by omega⟩
    rw [if_neg hm.not_gt, if_neg hm.ne', hi, List.getD_cons_succ, List.getD_eq_getElem?_getD,
      List.getElem?_getD_replicate_default_eq]

/-- Sample `a` meets coefficient `N - 1 - k` at response `k`, and after `N` responses none. -/
theorem timeDomainOutput_impulse (a : ℚ) (k : Nat) :
    timeDomainOutput SampleOps.exact coef (a :: List.replicate n 0) k =
      if h : k < n then coef[n - 1 - k] * a else 0 := by
  rw [timeDomainOutput_exact]
  simp only [pastSample_impulse, ite_mul, zero_mul]
  split
  · next h =>
    rw [Fintype.sum_eq_single (⟨n - 1 - k, by omega⟩ : Fin n) fun j hj => ?_]
    · rw [if_pos (by dsimp only; omega), mul_comm]
      rfl
    · have hne : j.val ≠ n - 1 - k := fun e => hj (Fin.ext e)
      rw [if_neg (by omega)]
  · next h => exact Finset.sum_eq_zero fun j _ => if_neg (by omega)

end

/-- Settles O38: at response `k` the one sample that is not zero stands before coefficient `N - 1 - k`. -/
theorem impulseResponseIsTheTableReversed : Obligations.ImpulseResponseIsTheTableReversed := by
  intro n hn coef a
  refine (feedAll_fresh_snd SampleOps.exact coef hn _).trans ?_
  rw [List.length_cons, List.length_replicate, List.range_succ, List.map_append]
  have hlast : timeDomainOutput SampleOps.exact coef (a :: List.replicate n 0) n = 0 := by
    rw [timeDomainOutput_impulse, dif_neg (lt_irrefl n)]
  refine congrArg₂ _ (List.ext_getElem (by simp) fun k hk _ => ?_) (congrArg (fun y => [y]) hlast)
  have hkn : k < n := by simpa using hk
  simp [timeDomainOutput_impulse, hkn]

/-! ### Symmetry of the table -/

theorem mirrored_mirrored {n : Nat} (i : Fin n) : mirrored (mirrored i) = i := by
  apply Fin.ext
  rw [mirrored_val, mirrored_val]
  omega

/-- A table reads the same backwards exactly when every element is its mirror image. -/
theorem reverse_toList_eq_iff {C : Type} {n : Nat} (coef : Vector C n) :
    coef.toList.reverse = coef.toList ↔ ∀ i : Fin n, coef.get (mirrored i) = coef.get i := by
  have hrev (i : Fin n) (h : i.val < coef.toList.reverse.length) :
      coef.toList.reverse[i.val] = coef.get (mirrored i) := by
    simp [Vector.get_eq_getElem]
  refine ⟨fun h i => ?_, fun h => List.ext_getElem (by simp) fun i hi _ => ?_⟩
  · rw [← hrev i (by simp), List.getElem_of_eq h]
    rfl
  · rw [hrev ⟨i, by simpa using hi⟩ hi, h]
    rfl

/-- Settles O54: the check compares the lower half with its mirror image, which says the same of the upper half; a middle
element is its own. -/
theorem exactSymmetryIsEqualityWithTheReverse : Obligations.ExactSymmetryIsEqualityWithTheReverse := by
  intro n coef
  simp only [CoefOps.palindromic_iff, reverse_toList_eq_iff, CoefOps.exact, decide_eq_true_eq]
  refine ⟨fun h i => ?_, fun h i _ => (h i).symm⟩
  rcases lt_trichotomy i.val (mirrored i).val with hlow | hmid | hhigh
  · exact (h i (by rw [mirrored_val] at hlow; omega)).symm
  · rw [← Fin.ext hmid]
  · have hmirror := h (mirrored i) (by rw [mirrored_val] at hhigh ⊢; omega)
    rwa [mirrored_mirrored] at hmirror

/-- Settles O40: `F32` by running the model, `EXACT` by the arithmetic of the equal delay line. -/
theorem sourceScenarioGivesTheSourceOutputs : Obligations.SourceScenarioGivesTheSourceOutputs := by
  refine ⟨(delayLineEqualsTheRingBuffer ℚ ℚ 4 (by decide) SampleOps.exact _ _).1.symm.trans ?_, by decide⟩
  norm_num [DelayLine.feedAll, DelayLine.shift, DelayLine.output, DelayLine.fresh, SampleOps.exact, List.replicate]

end Sys2Proof.Machine
end

section
/-! Binary32 rounding: one significand and one shift, the value they spell, and that no finite pattern is nearer
(41_feed.md R151, R152, R155). -/

namespace Sys2Proof.Machine

/-! ### The nearest integer -/

/-- The nearest integer is at most half a unit away, and is even where it is exactly half a unit away. -/
theorem F32.nearestEven_spec (num : Nat) {den : Nat} (hden : 0 < den) :
    2 * ((F32.nearestEven num den * den : Nat) - (num : Int)).natAbs ≤ den ∧
      (2 * ((F32.nearestEven num den * den : Nat) - (num : Int)).natAbs = den → F32.nearestEven num den % 2 = 0) := by
  have hdiv : num / den * den + num % den = num := Nat.div_add_mod' num den
  have hmod : num % den < den := Nat.mod_lt num hden
  rw [F32.nearestEven]
  split
  · next hup =>
    rw [Nat.add_mul, Nat.one_mul]
    omega
  · next hdown => omega

/-- No integer is nearer, and another one that is as near is odd where the nearest is even. -/
theorem F32.nearestEven_nearest (num : Nat) {den : Nat} (hden : 0 < den) (t : Nat) :
    ((F32.nearestEven num den * den : Nat) - (num : Int)).natAbs ≤ ((t * den : Nat) - (num : Int)).natAbs ∧
      (((F32.nearestEven num den * den : Nat) - (num : Int)).natAbs = ((t * den : Nat) - (num : Int)).natAbs →
        t ≠ F32.nearestEven num den → F32.nearestEven num den % 2 = 0 ∧ t % 2 = 1) := by
  obtain ⟨hhalf, heven⟩ := F32.nearestEven_spec num hden
  generalize F32.nearestEven num den = q at hhalf heven ⊢
  rcases lt_trichotomy t q with hlt | rfl | hgt
  · obtain ⟨k, rfl⟩ := Nat.exists_eq_add_of_lt hlt
    have hfar : (t + k + 1) * den = t * den + k * den + den := by ring
    have hk : k ≠ 0 → den ≤ k * den := fun hk => Nat.le_mul_of_pos_left den (Nat.pos_of_ne_zero hk)
    omega
  · exact ⟨le_rfl, fun _ hne => absurd rfl hne⟩
  · obtain ⟨k, rfl⟩ := Nat.exists_eq_add_of_lt hgt
    have hfar : (q + k + 1) * den = q * den + k * den + den := by ring
    have hk : k ≠ 0 → den ≤ k * den := fun hk => Nat.le_mul_of_pos_left den (Nat.pos_of_ne_zero hk)
    omega

/-- Half a unit above an odd integer is where rounding goes over to the next one. -/
theorem F32.nearestEven_le_iff (num : Nat) {den : Nat} (hden : 0 < den) {k : Nat} (hk : k % 2 = 1) :
    F32.nearestEven num den ≤ k ↔ 2 * num < (2 * k + 1) * den := by
  obtain ⟨hhalf, heven⟩ := F32.nearestEven_spec num hden
  generalize F32.nearestEven num den = q at hhalf heven ⊢
  have hmid : (2 * k + 1) * den = 2 * (k * den) + den := by ring
  rcases lt_trichotomy q k with hlt | rfl | hgt
  · have hqd : (q + 1) * den ≤ k * den := Nat.mul_le_mul_right den hlt
    rw [Nat.add_mul, Nat.one_mul] at hqd
    exact iff_of_true hlt.le (by omega)
  · exact iff_of_true le_rfl (by omega)
  · have hqd : (k + 1) * den ≤ q * den := Nat.mul_le_mul_right den hgt
    rw [Nat.add_mul, Nat.one_mul] at hqd
    exact iff_of_false hgt.not_ge (by omega)

/-! ### Significand and shift -/

/-- The rounded significand of `num / den` units, in quanta of `2 ^ shift` units. -/
def F32.significand (num den : Nat) : Nat := F32.nearestEven num (den * 2 ^ F32.shift num den)

/-- The 31 bits below the sign that `round` packs, unless they overflow. -/
def F32.roundLow (num den : Nat) : Nat := F32.shift num den * 2 ^ 23 + F32.significand num den

theorem F32.round_eq (sign : Bool) (num den : Nat) :
    F32.round sign num den =
      if F32.roundLow num den < 0x7F800000 then F32.pack sign (F32.roundLow num den) else F32.infOf sign := rfl

section
variable (num : Nat) {den : Nat} (hden : 0 < den)
include hden

/-- The shift is large enough for the quotient to fit 24 bits. -/
theorem F32.lt_of_shift : num < 2 ^ (F32.shift num den + 24) * den := by
  rw [← Nat.div_lt_iff_lt_mul hden]
  refine Nat.lt_log2_self.trans_le (Nat.pow_le_pow_right Nat.two_pos ?_)
  rw [F32.shift]
  omega

/-- It is no larger than needed. -/
theorem F32.le_of_shift_pos (hshift : 0 < F32.shift num den) : 2 ^ (F32.shift num den + 23) * den ≤ num := by
  rw [← Nat.le_div_iff_mul_le hden]
  have hlog : F32.shift num den + 23 = (num / den).log2 := by
    rw [F32.shift] at hshift ⊢
    omega
  rw [hlog]
  refine Nat.log2_self_le fun h => ?_
  rw [F32.shift, h] at hshift
  exact absurd hshift (by decide)

theorem F32.significand_le : F32.significand num den ≤ 2 ^ 24 := by
  have hd : 0 < den * 2 ^ F32.shift num den := Nat.mul_pos hden (Nat.two_pow_pos _)
  obtain ⟨hhalf, -⟩ := F32.nearestEven_spec num hd
  have hnum : num < 2 ^ 24 * (den * 2 ^ F32.shift num den) :=
    (F32.lt_of_shift num hden).trans_eq (by ring)
  rw [F32.significand]
  generalize den * 2 ^ F32.shift num den = d at *
  by_contra hq
  have hqd : (2 ^ 24 + 1) * d ≤ F32.nearestEven num d * d := Nat.mul_le_mul_right d (by omega)
  omega

theorem F32.le_significand (hshift : 0 < F32.shift num den) : 2 ^ 23 ≤ F32.significand num den := by
  have hd : 0 < den * 2 ^ F32.shift num den := Nat.mul_pos hden (Nat.two_pow_pos _)
  obtain ⟨hhalf, -⟩ := F32.nearestEven_spec num hd
  have hnum : 2 ^ 23 * (den * 2 ^ F32.shift num den) ≤ num :=
    le_of_eq_of_le (by ring) (F32.le_of_shift_pos num hden hshift)
  rw [F32.significand]
  generalize den * 2 ^ F32.shift num den = d at *
  by_contra hq
  have hqd : F32.nearestEven num d * d ≤ (2 ^ 23 - 1) * d := Nat.mul_le_mul_right d (by omega)
  omega

end

/-- A significand `q` of up to 24 bits at shift `e` spells `q * 2^e`: the hidden bit and a carry out of the significand both
step the exponent. -/
theorem F32.magnitude_pack (sign : Bool) {e q : Nat} (hq : q ≤ 2 ^ 24) (hnormal : 0 < e → 2 ^ 23 ≤ q)
    (hlow : e * 2 ^ 23 + q < 2 ^ 31) : F32.magnitude (F32.pack sign (e * 2 ^ 23 + q)) = q * 2 ^ e := by
  have hexp := F32.expField_pack sign _ hlow
  have hfrac := F32.frac_pack sign _ hlow
  rcases Nat.lt_or_ge q (2 ^ 23) with hsub | hge
  · obtain rfl : e = 0 := by omega
    rw [F32.magnitude_of_subnormal (hexp.trans (by omega)), hfrac]
    omega
  · rcases Nat.lt_or_ge q (2 ^ 24) with hlt | hcarry
    · rw [F32.magnitude_of_normal (e := e) (hexp.trans (by omega)), hfrac]
      congr 1
      omega
    · obtain rfl : q = 2 ^ 24 := by omega
      rw [F32.magnitude_of_normal (e := e + 1) (hexp.trans (by omega)), hfrac]
      have hzero : (e * 2 ^ 23 + 2 ^ 24) % 2 ^ 23 = 0 := by omega
      rw [hzero]
      ring

theorem F32.frac_pack_mod_two (sign : Bool) {e q : Nat} (hlow : e * 2 ^ 23 + q < 2 ^ 31) :
    F32.frac (F32.pack sign (e * 2 ^ 23 + q)) % 2 = q % 2 := by
  rw [F32.frac_pack sign _ hlow]
  omega

/-! ### The overflow threshold -/

section
variable (num : Nat) {den : Nat} (hden : 0 < den)
include hden

theorem F32.roundLow_lt_iff : F32.roundLow num den < 0x7F800000 ↔ num < (2 ^ 25 - 1) * 2 ^ 252 * den := by
  have hle := F32.significand_le num hden
  rw [F32.roundLow]
  rcases lt_trichotomy (F32.shift num den) 253 with hbelow | hat | habove
  · have hnum : num < (2 ^ 25 - 1) * 2 ^ 252 * den :=
      calc num < 2 ^ (F32.shift num den + 24) * den := F32.lt_of_shift num hden
        _ = 2 ^ 24 * (2 ^ F32.shift num den * den) := by ring
        _ ≤ (2 ^ 25 - 1) * (2 ^ 252 * den) :=
          Nat.mul_le_mul (by norm_num)
            (Nat.mul_le_mul_right _ (Nat.pow_le_pow_right Nat.two_pos (by omega)))
        _ = (2 ^ 25 - 1) * 2 ^ 252 * den := (Nat.mul_assoc _ _ _).symm
    exact iff_of_true (by omega) hnum
  · have hround := F32.nearestEven_le_iff num (Nat.mul_pos hden (Nat.two_pow_pos 253)) (k := 2 ^ 24 - 1) (by norm_num)
    have hscale : (2 * (2 ^ 24 - 1) + 1) * (den * 2 ^ 253) = 2 * ((2 ^ 25 - 1) * 2 ^ 252 * den) := by ring
    rw [hscale, Nat.mul_lt_mul_left Nat.two_pos] at hround
    rw [← hround, F32.significand, hat]
    omega
  · have hge := F32.le_significand num hden (by omega)
    have hnum : (2 ^ 25 - 1) * 2 ^ 252 * den ≤ num :=
      calc (2 ^ 25 - 1) * 2 ^ 252 * den = (2 ^ 25 - 1) * (2 ^ 252 * den) := Nat.mul_assoc _ _ _
        _ ≤ 2 ^ 23 * 2 ^ 2 * (2 ^ 252 * den) := Nat.mul_le_mul_right _ (by norm_num)
        _ = 2 ^ 23 * (2 ^ (2 + 252) * den) := by rw [pow_add 2 2, Nat.mul_assoc, Nat.mul_assoc]
        _ ≤ 2 ^ 23 * (2 ^ F32.shift num den * den) :=
          Nat.mul_le_mul_left _ (Nat.mul_le_mul_right _ (Nat.pow_le_pow_right Nat.two_pos (by omega)))
        _ = 2 ^ (F32.shift num den + 23) * den := by ring
        _ ≤ num := F32.le_of_shift_pos num hden (by omega)
    exact iff_of_false (by omega) hnum.not_gt

end

/-! ### The nearest pattern -/

/-- Among the multiples of `2^e` lie all magnitudes but those below the binade of shift `e`; an odd multiple has an odd
significand. -/
theorem F32.magnitude_multiple_or_lt (x : BitVec 32) (e : Nat) :
    (∃ t, F32.magnitude x = t * 2 ^ e ∧ (t % 2 = 1 → F32.frac x % 2 = 1)) ∨
      (0 < e ∧ F32.magnitude x < 2 ^ (e + 23)) := by
  by_cases hsmall : 0 < e ∧ F32.expField x ≤ e
  · exact .inr ⟨hsmall.1, (F32.magnitude_lt x).trans_le (Nat.pow_le_pow_right Nat.two_pos (by omega))⟩
  · left
    cases h : F32.expField x with
    | zero =>
      obtain rfl : e = 0 := by omega
      exact ⟨F32.frac x, by rw [F32.magnitude_of_subnormal h, pow_zero, mul_one], id⟩
    | succ k =>
      obtain ⟨i, rfl⟩ : ∃ i, k = e + i := Nat.exists_eq_add_of_le (by omega)
      refine ⟨(2 ^ 23 + F32.frac x) * 2 ^ i, by rw [F32.magnitude_of_normal h]; ring, fun hodd => ?_⟩
      cases i with
      | zero => omega
      | succ i =>
        have heven : (2 ^ 23 + F32.frac x) * 2 ^ (i + 1) = (2 ^ 23 + F32.frac x) * 2 ^ i * 2 := by ring
        omega

section
variable (num : Nat) {den : Nat} (hden : 0 < den)
include hden

/-- On magnitudes: none is nearer to `num / den` units than the rounded one, and another one that is as near belongs to an odd
significand where the rounded one is even. -/
theorem F32.significand_nearest (x : BitVec 32) :
    ((F32.significand num den * 2 ^ F32.shift num den * den : Nat) - (num : Int)).natAbs ≤
        ((F32.magnitude x * den : Nat) - (num : Int)).natAbs ∧
      (((F32.significand num den * 2 ^ F32.shift num den * den : Nat) - (num : Int)).natAbs =
          ((F32.magnitude x * den : Nat) - (num : Int)).natAbs →
        F32.magnitude x ≠ F32.significand num den * 2 ^ F32.shift num den →
        F32.significand num den % 2 = 0 ∧ F32.frac x % 2 = 1) := by
  have hd : 0 < den * 2 ^ F32.shift num den := Nat.mul_pos hden (Nat.two_pow_pos _)
  have hassoc (t : Nat) : t * 2 ^ F32.shift num den * den = t * (den * 2 ^ F32.shift num den) := by ring
  rcases F32.magnitude_multiple_or_lt x (F32.shift num den) with ⟨t, ht, hodd⟩ | ⟨hpos, hlt⟩
  · obtain ⟨hle, htie⟩ := F32.nearestEven_nearest num hd t
    rw [ht, hassoc, hassoc, F32.significand]
    refine ⟨hle, fun heq hne => ?_⟩
    obtain ⟨heven, ht⟩ := htie heq fun e => hne (e ▸ rfl)
    exact ⟨heven, hodd ht⟩
  · obtain ⟨hle, -⟩ := F32.nearestEven_nearest num hd (2 ^ 23)
    have hbinade : 2 ^ 23 * (den * 2 ^ F32.shift num den) ≤ num :=
      le_of_eq_of_le (by ring) (F32.le_of_shift_pos num hden hpos)
    have hbelow : F32.magnitude x * den < 2 ^ 23 * (den * 2 ^ F32.shift num den) :=
      (Nat.mul_lt_mul_of_pos_right hlt hden).trans_eq (by ring)
    rw [hassoc, F32.significand]
    omega

end

/-! ### The rounded pattern -/

@[simp] theorem F32.sign_round (sign : Bool) (num den : Nat) : F32.sign (F32.round sign num den) = sign := by
  rw [F32.round_eq]
  split
  · exact F32.sign_pack _ _
  · exact F32.sign_pack _ _

section
variable (sign : Bool) (num : Nat) {den : Nat} (hden : 0 < den)
include hden

/-- From the overflow threshold on the result is an infinity (41_feed.md R151). -/
theorem F32.round_of_ge (h : (2 ^ 25 - 1) * 2 ^ 252 * den ≤ num) : F32.round sign num den = F32.infOf sign := by
  rw [F32.round_eq, if_neg ((F32.roundLow_lt_iff num hden).not.2 h.not_gt)]

/-- Below the threshold the result is finite and spells the significand at its shift. -/
theorem F32.round_of_lt (h : num < (2 ^ 25 - 1) * 2 ^ 252 * den) :
    F32.isFinite (F32.round sign num den) = true ∧
      F32.magnitude (F32.round sign num den) = F32.significand num den * 2 ^ F32.shift num den ∧
      F32.frac (F32.round sign num den) % 2 = F32.significand num den % 2 := by
  have hlow := (F32.roundLow_lt_iff num hden).2 h
  have hlow' : F32.roundLow num den < 2 ^ 31 := hlow.trans (by norm_num)
  rw [F32.round_eq, if_pos hlow]
  refine ⟨?_, ?_, ?_⟩
  · rw [F32.isFinite, F32.expField_pack sign _ hlow', bne_iff_ne]
    omega
  · exact F32.magnitude_pack sign (F32.significand_le num hden) (F32.le_significand num hden) hlow'
  · exact F32.frac_pack_mod_two sign hlow'

end

/-- `r` is nearest to `z / den` units among the finite patterns, and a pattern of another value that is as near has an odd
significand where that of `r` is even (41_feed.md R155). -/
def F32.NearestTo (r : BitVec 32) (z : Int) (den : Nat) : Prop :=
  ∀ x : BitVec 32, F32.isFinite x = true →
    (F32.units r * den - z).natAbs ≤ (F32.units x * den - z).natAbs ∧
    ((F32.units r * den - z).natAbs = (F32.units x * den - z).natAbs →
      F32.units x ≠ F32.units r → F32.frac r % 2 = 0 ∧ F32.frac x % 2 = 1)

theorem F32.natAbs_units_mul (x : BitVec 32) (den : Nat) :
    (F32.units x * den).natAbs = F32.magnitude x * den := by
  rw [Int.natAbs_mul, F32.natAbs_units, Int.natAbs_natCast]

/-- Two values are no nearer to each other than their magnitudes. -/
theorem F32.dist_magnitude_le (x : BitVec 32) (z : Int) (den : Nat) :
    ((F32.magnitude x * den : Nat) - (z.natAbs : Int)).natAbs ≤ (F32.units x * den - z).natAbs := by
  rw [← F32.natAbs_units_mul]
  omega

/-- With one sign they are just as near. -/
theorem F32.dist_magnitude_of_sign {x : BitVec 32} {z : Int} (h : z ≠ 0 → F32.sign x = decide (z < 0)) (den : Nat) :
    (F32.units x * den - z).natAbs = ((F32.magnitude x * den : Nat) - (z.natAbs : Int)).natAbs := by
  have hnonneg : (0 : Int) ≤ F32.magnitude x * den := by positivity
  by_cases hz : z = 0
  · rw [hz, ← F32.natAbs_units_mul]
    omega
  · rw [F32.units, h hz]
    by_cases hneg : z < 0
    · rw [decide_eq_true hneg, if_pos rfl, Int.neg_mul, Nat.cast_mul]
      omega
    · rw [decide_eq_false hneg, if_neg Bool.false_ne_true, Nat.cast_mul]
      omega

/-- Only zero is as near to `z` as its negation is. -/
theorem eq_zero_of_dist_neg_eq {a z : Int} (hz : z ≠ 0) (h : (a - z).natAbs = (-a - z).natAbs) : a = 0 := by
  omega

/-- A zero rounds to a zero. -/
theorem F32.significand_zero (den : Nat) : F32.significand 0 den = 0 := by
  simp [F32.significand, F32.nearestEven]

/-- Rounding a value below the overflow threshold gives the finite pattern nearest to it, ties to even. -/
theorem F32.round_nearestTo {sign : Bool} {z : Int} {den : Nat} (hden : 0 < den)
    (hsign : z ≠ 0 → sign = decide (z < 0)) (h : z.natAbs < (2 ^ 25 - 1) * 2 ^ 252 * den) :
    F32.NearestTo (F32.round sign z.natAbs den) z den := by
  intro x _
  obtain ⟨-, hmag, hfrac⟩ := F32.round_of_lt sign z.natAbs hden h
  obtain ⟨hle, htie⟩ := F32.significand_nearest z.natAbs hden x
  have hdist := F32.dist_magnitude_of_sign (x := F32.round sign z.natAbs den) (by simpa using hsign) den
  have hx := F32.dist_magnitude_le x z den
  rw [← hmag] at hle htie
  rw [← hfrac] at htie
  rw [hdist]
  refine ⟨hle.trans hx, fun heq hne => htie (le_antisymm hle (heq ▸ hx)) fun hmags => hne ?_⟩
  by_cases hsigns : F32.sign x = F32.sign (F32.round sign z.natAbs den)
  · rw [F32.eq_of_magnitude_eq hsigns hmags]
  · have hneg := F32.units_eq_neg_of_sign_ne hsigns hmags
    have hzero : F32.units (F32.round sign z.natAbs den) = 0 := by
      by_cases hz : z = 0
      · rw [F32.units_eq_zero_iff, hmag, hz, Int.natAbs_zero, F32.significand_zero, Nat.zero_mul]
      · rw [← hdist, hneg, Int.neg_mul] at heq
        exact (Int.mul_eq_zero.1 (eq_zero_of_dist_neg_eq hz heq)).resolve_right (by omega)
    rw [hneg, hzero, neg_zero]

end Sys2Proof.Machine
end

section
/-! Binary32 addition and multiplication by the kinds of their operands: NaNs, infinities, finite values (41_feed.md R151,
R152, R154, R156). -/

namespace Sys2Proof.Machine

/-! ### Kinds of patterns -/

/-- Every pattern is a NaN, an infinity or finite, and no two of them. -/
theorem F32.kind_cases (b : BitVec 32) :
    (F32.isNaN b = true ∧ F32.isInf b = false ∧ F32.isFinite b = false) ∨
    (F32.isNaN b = false ∧ F32.isInf b = true ∧ F32.isFinite b = false) ∨
    (F32.isNaN b = false ∧ F32.isInf b = false ∧ F32.isFinite b = true) := by
  by_cases hexp : F32.expField b = 255
  · by_cases hfrac : F32.frac b = 0
    · simp [F32.isNaN, F32.isInf, F32.isFinite, hexp, hfrac]
    · simp [F32.isNaN, F32.isInf, F32.isFinite, hexp, hfrac]
  · simp [F32.isNaN, F32.isInf, F32.isFinite, hexp]

theorem F32.isNaN_of_isInf {b : BitVec 32} (h : F32.isInf b = true) : F32.isNaN b = false := by
  simp only [F32.isInf, Bool.and_eq_true, beq_iff_eq] at h
  simp [F32.isNaN, h]

theorem F32.isInf_of_isFinite {b : BitVec 32} (h : F32.isFinite b = true) : F32.isInf b = false := by
  simp only [F32.isFinite, bne_iff_ne] at h
  simp [F32.isInf, h]

@[simp] theorem F32.isNaN_infOf (s : Bool) : F32.isNaN (F32.infOf s) = false := by
  cases s with
  | true => decide
  | false => decide

@[simp] theorem F32.isInf_infOf (s : Bool) : F32.isInf (F32.infOf s) = true := by
  cases s with
  | true => decide
  | false => decide

/-- The two zeros are the patterns of magnitude 0. -/
theorem F32.magnitude_eq_zero_iff (b : BitVec 32) :
    F32.magnitude b = 0 ↔ b = 0x00000000#32 ∨ b = 0x80000000#32 := by
  refine ⟨fun h => ?_, ?_⟩
  · cases hs : F32.sign b with
    | false => exact .inl (F32.eq_of_magnitude_eq (hs.trans (by decide)) (h.trans (by decide)))
    | true => exact .inr (F32.eq_of_magnitude_eq (hs.trans (by decide)) (h.trans (by decide)))
  · rintro (rfl | rfl)
    · decide
    · decide

theorem F32.isNaN_round (s : Bool) (num den : Nat) : F32.isNaN (F32.round s num den) = false := by
  rw [F32.round_eq]
  split
  · next h =>
    have hexp := F32.expField_pack s _ (h.trans (by norm_num))
    have hne : F32.expField (F32.pack s (F32.roundLow num den)) ≠ 255 := by omega
    simp [F32.isNaN, hne]
  · exact F32.isNaN_infOf s

/-! ### Addition by kinds -/

theorem F32.add_of_isNaN {a b : BitVec 32} (h : F32.isNaN a = true ∨ F32.isNaN b = true) :
    F32.add a b = F32.nanOf (Config.addNaN a b) := by
  rw [F32.add, if_pos (by simpa using h)]

theorem F32.add_of_isInf_of_sign_ne {a b : BitVec 32} (ha : F32.isInf a = true) (hb : F32.isInf b = true)
    (hsign : F32.sign a ≠ F32.sign b) : F32.add a b = F32.nanOf (Config.addNaN a b) := by
  simp [F32.add, ha, hb, hsign]

/-- The first operand is an infinity that no NaN and no opposite infinity meets. -/
theorem F32.add_of_isInf_left {a b : BitVec 32} (ha : F32.isInf a = true) (hb : F32.isNaN b = false)
    (hsign : F32.isInf b = true → F32.sign a = F32.sign b) : F32.add a b = a := by
  have hopposite : ¬(F32.isInf b = true ∧ F32.sign a ≠ F32.sign b) := fun ⟨hbi, hne⟩ => hne (hsign hbi)
  rw [F32.add, if_neg (by simp [F32.isNaN_of_isInf ha, hb]), if_pos ha, if_neg (by simpa using hopposite)]

theorem F32.add_of_isInf_right {a b : BitVec 32} (ha : F32.isFinite a = true) (hb : F32.isInf b = true) :
    F32.add a b = b := by
  simp [F32.add, hb, F32.isNaN_of_isFinite ha, F32.isInf_of_isFinite ha, F32.isNaN_of_isInf hb]

theorem F32.add_of_isFinite {a b : BitVec 32} (ha : F32.isFinite a = true) (hb : F32.isFinite b = true) :
    F32.add a b = F32.addFinite a b := by
  simp [F32.add, F32.isNaN_of_isFinite ha, F32.isInf_of_isFinite ha, F32.isNaN_of_isFinite hb,
    F32.isInf_of_isFinite hb]

theorem F32.round_zero (s : Bool) (den : Nat) : F32.round s 0 den = F32.zeroOf s := by
  simp [F32.round, F32.nearestEven, F32.shift, F32.zeroOf]

/-- Whether the sum is zero or not, it is rounded once; the sign of a zero is the operands' where they have one. -/
theorem F32.addFinite_eq_round (a b : BitVec 32) :
    F32.addFinite a b =
      F32.round (if F32.units a + F32.units b = 0 then F32.sign a && F32.sign b
        else decide (F32.units a + F32.units b < 0)) (F32.units a + F32.units b).natAbs 1 := by
  rw [F32.addFinite]
  split
  · next h => rw [h, Int.natAbs_zero, F32.round_zero]
  · rfl

theorem F32.isNaN_add_iff (a b : BitVec 32) :
    F32.isNaN (F32.add a b) = true ↔
      (F32.isNaN a = true ∨ F32.isNaN b = true ∨
        (F32.isInf a = true ∧ F32.isInf b = true ∧ F32.sign a ≠ F32.sign b)) := by
  rcases F32.kind_cases a with ⟨ha, hai, -⟩ | ⟨ha, hai, -⟩ | ⟨ha, hai, haf⟩
  · simp [F32.add_of_isNaN (.inl ha), ha]
  · rcases F32.kind_cases b with ⟨hb, hbi, -⟩ | ⟨hb, hbi, -⟩ | ⟨hb, hbi, -⟩
    · simp [F32.add_of_isNaN (.inr hb), hb]
    · by_cases hsign : F32.sign a = F32.sign b
      · simp [F32.add_of_isInf_left hai hb fun _ => hsign, ha, hb, hsign]
      · simp [F32.add_of_isInf_of_sign_ne hai hbi hsign, hai, hbi, hsign]
    · simp [F32.add_of_isInf_left hai hb (by simp [hbi]), ha, hb, hbi]
  · rcases F32.kind_cases b with ⟨hb, -, -⟩ | ⟨hb, hbi, -⟩ | ⟨hb, -, hbf⟩
    · simp [F32.add_of_isNaN (.inr hb), hb]
    · simp [F32.add_of_isInf_right haf hbi, ha, hb, hai]
    · simp [F32.add_of_isFinite haf hbf, F32.addFinite_eq_round, F32.isNaN_round, ha, hb, hai]

/-! ### Multiplication by kinds -/

theorem F32.scale_of_isNaN {h c : BitVec 32} (hnan : F32.isNaN h = true ∨ F32.isNaN c = true) :
    F32.scale h c = F32.nanOf (Config.scaleNaN h c) := by
  rw [F32.scale, if_pos (by simpa using hnan)]

theorem F32.magnitude_ne_zero_of_isInf {b : BitVec 32} (h : F32.isInf b = true) : F32.magnitude b ≠ 0 := by
  rw [Ne, F32.magnitude_eq_zero_iff]
  rintro (rfl | rfl)
  · exact absurd h (by decide)
  · exact absurd h (by decide)

theorem F32.isFinite_of_magnitude_eq_zero {b : BitVec 32} (h : F32.magnitude b = 0) : F32.isFinite b = true := by
  obtain rfl | rfl := (F32.magnitude_eq_zero_iff b).1 h
  · decide
  · decide

/-- An infinity and a zero, in either order. -/
theorem F32.scale_of_isInf_of_zero {h c : BitVec 32}
    (hinv : (F32.isInf h = true ∧ F32.magnitude c = 0) ∨ (F32.isInf c = true ∧ F32.magnitude h = 0)) :
    F32.scale h c = F32.nanOf (Config.scaleNaN h c) := by
  rcases hinv with ⟨hi, hz⟩ | ⟨hi, hz⟩
  · have hf := F32.isFinite_of_magnitude_eq_zero hz
    simp [F32.scale, hi, hz, hf, F32.isNaN_of_isInf hi]
  · have hf := F32.isFinite_of_magnitude_eq_zero hz
    simp [F32.scale, hi, hz, F32.isInf_of_isFinite hf]

/-- An infinity and anything but a zero or a NaN, in either order. -/
theorem F32.scale_of_isInf {h c : BitVec 32} (hnan : F32.isNaN h = false) (cnan : F32.isNaN c = false)
    (hinf : (F32.isInf h = true ∧ F32.magnitude c ≠ 0) ∨ (F32.isInf c = true ∧ F32.magnitude h ≠ 0)) :
    F32.scale h c = F32.infOf (F32.sign h ^^ F32.sign c) := by
  rcases hinf with ⟨hi, hz⟩ | ⟨hi, hz⟩
  · simp [F32.scale, hi, hz, hnan, cnan]
  · by_cases hi' : F32.isInf h = true
    · simp [F32.scale, hi', hnan, cnan, F32.magnitude_ne_zero_of_isInf hi]
    · simp [F32.scale, hi, hi', hz, hnan, cnan]

theorem F32.scale_of_isFinite {h c : BitVec 32} (hh : F32.isFinite h = true) (hc : F32.isFinite c = true) :
    F32.scale h c =
      F32.round (F32.sign h ^^ F32.sign c) (F32.magnitude h * F32.magnitude c) (2 ^ 149) := by
  simp [F32.scale, F32.isNaN_of_isFinite hh, F32.isInf_of_isFinite hh, F32.isNaN_of_isFinite hc,
    F32.isInf_of_isFinite hc]

theorem F32.isNaN_scale_iff (h c : BitVec 32) :
    F32.isNaN (F32.scale h c) = true ↔
      (F32.isNaN h = true ∨ F32.isNaN c = true ∨ (F32.isInf h = true ∧ F32.magnitude c = 0) ∨
        (F32.isInf c = true ∧ F32.magnitude h = 0)) := by
  by_cases hinv : (F32.isInf h = true ∧ F32.magnitude c = 0) ∨ (F32.isInf c = true ∧ F32.magnitude h = 0)
  · simp only [F32.scale_of_isInf_of_zero hinv, F32.isNaN_nanOf, hinv, or_true]
  · simp only [hinv, or_false]
    rcases F32.kind_cases h with ⟨hh, -, -⟩ | ⟨hh, hhi, -⟩ | ⟨hh, -, hhf⟩
    · simp [F32.scale_of_isNaN (.inl hh), hh]
    · cases hc : F32.isNaN c with
      | true => simp [F32.scale_of_isNaN (.inr hc)]
      | false => simp [F32.scale_of_isInf hh hc (.inl ⟨hhi, fun hz => hinv (.inl ⟨hhi, hz⟩)⟩), hh]
    · rcases F32.kind_cases c with ⟨hc, -, -⟩ | ⟨hc, hci, -⟩ | ⟨hc, -, hcf⟩
      · simp [F32.scale_of_isNaN (.inr hc), hc]
      · simp [F32.scale_of_isInf hh hc (.inr ⟨hci, fun hz => hinv (.inr ⟨hci, hz⟩)⟩), hh, hc]
      · simp [F32.scale_of_isFinite hhf hcf, F32.isNaN_round, hh, hc]

/-- Settles O44: by the kinds of the operands; a rounded result is never a NaN. -/
theorem f32ResultsAreNaNExactlyWhenInvalid : Obligations.F32ResultsAreNaNExactlyWhenInvalid := by
  refine ⟨F32.isNaN_add_iff, fun h c => ?_⟩
  rw [F32.isNaN_scale_iff, F32.magnitude_eq_zero_iff, F32.magnitude_eq_zero_iff]

/-! ### Signed zeros and infinities -/

/-- Two values that sum to zero with one sign are two zeros of that sign. -/
theorem F32.eq_negZero_of_sign {a b : BitVec 32} (hsum : F32.units a + F32.units b = 0) (ha : F32.sign a = true)
    (hb : F32.sign b = true) : a = 0x80000000#32 ∧ b = 0x80000000#32 := by
  rw [F32.units, F32.units, ha, hb, if_pos rfl, if_pos rfl] at hsum
  have hmag : F32.magnitude a = 0 ∧ F32.magnitude b = 0 := by omega
  exact ⟨F32.eq_of_magnitude_eq (ha.trans (by decide)) (hmag.1.trans (by decide)),
    F32.eq_of_magnitude_eq (hb.trans (by decide)) (hmag.2.trans (by decide))⟩

theorem F32.addFinite_of_sum_zero {a b : BitVec 32} (hsum : F32.units a + F32.units b = 0) :
    F32.addFinite a b = if a = 0x80000000#32 ∧ b = 0x80000000#32 then 0x80000000#32 else 0x00000000#32 := by
  rw [F32.addFinite, if_pos hsum]
  split
  · next h =>
    obtain ⟨rfl, rfl⟩ := h
    decide
  · next h =>
    have hsign : (F32.sign a && F32.sign b) = false := by
      rw [Bool.eq_false_iff, Ne, Bool.and_eq_true]
      exact fun ⟨ha, hb⟩ => h (F32.eq_negZero_of_sign hsum ha hb)
    rw [hsign]
    decide

/-- Settles O55: the sum of finite values by its sign, the others by the kinds of the operands. -/
theorem f32AddZerosAndInfinities : Obligations.F32AddZerosAndInfinities := by
  refine ⟨fun a b ha hb hsum => ?_, fun a b ha hb => ⟨?_, ?_⟩, fun a ha => ?_⟩
  · rw [F32.add_of_isFinite ha hb, F32.addFinite_of_sum_zero hsum]
  · exact F32.add_of_isInf_left ha (F32.isNaN_of_isFinite hb) (by simp [F32.isInf_of_isFinite hb])
  · exact F32.add_of_isInf_right hb ha
  · exact F32.add_of_isInf_left ha (F32.isNaN_of_isInf ha) fun _ => rfl

/-- Settles O56: a pattern that is neither zero has a magnitude that is not 0. -/
theorem f32ScaleInfinities : Obligations.F32ScaleInfinities := by
  intro h c hinf hnan hpos hneg
  have hmag : F32.magnitude c ≠ 0 := fun hz => ((F32.magnitude_eq_zero_iff c).1 hz).elim hpos hneg
  refine ⟨F32.scale_of_isInf (F32.isNaN_of_isInf hinf) hnan (.inl ⟨hinf, hmag⟩), ?_⟩
  rw [F32.scale_of_isInf hnan (F32.isNaN_of_isInf hinf) (.inr ⟨hinf, hmag⟩), Bool.xor_comm]

/-- A whole number of units that is not zero does not round to zero: subnormals have room for every unit. -/
theorem F32.significand_ne_zero {num : Nat} (hnum : num ≠ 0) : F32.significand num 1 ≠ 0 := by
  intro hq
  rcases Nat.eq_zero_or_pos (F32.shift num 1) with hshift | hshift
  · obtain ⟨hhalf, -⟩ := F32.nearestEven_spec num Nat.one_pos
    rw [F32.significand, hshift, pow_zero, Nat.mul_one] at hq
    rw [hq] at hhalf
    omega
  · have hge := F32.le_significand num Nat.one_pos hshift
    omega

theorem F32.magnitude_round_ne_zero (s : Bool) {num : Nat} (hnum : num ≠ 0) :
    F32.magnitude (F32.round s num 1) ≠ 0 := by
  rcases Nat.lt_or_ge num ((2 ^ 25 - 1) * 2 ^ 252 * 1) with hlt | hge
  · obtain ⟨-, hmag, -⟩ := F32.round_of_lt s num Nat.one_pos hlt
    rw [hmag]
    exact Nat.mul_ne_zero (F32.significand_ne_zero hnum) (Nat.two_pow_pos _).ne'
  · rw [F32.round_of_ge s num Nat.one_pos hge]
    exact F32.magnitude_ne_zero_of_isInf (F32.isInf_infOf s)

theorem F32.addFinite_ne_negZero {a : BitVec 32} (ha : a ≠ 0x80000000#32) (b : BitVec 32) :
    F32.addFinite a b ≠ 0x80000000#32 := by
  by_cases hsum : F32.units a + F32.units b = 0
  · rw [F32.addFinite_of_sum_zero hsum, if_neg fun h => ha h.1]
    decide
  · intro h
    have hmag : F32.magnitude (F32.addFinite a b) ≠ 0 := by
      rw [F32.addFinite_eq_round]
      exact F32.magnitude_round_ne_zero _ (Int.natAbs_ne_zero.2 hsum)
    rw [h] at hmag
    exact hmag (by decide)

/-- A sum is `-0` only where the operands are (41_feed.md R151). -/
theorem F32.add_ne_negZero {a : BitVec 32} (ha : a ≠ 0x80000000#32) (b : BitVec 32) :
    F32.add a b ≠ 0x80000000#32 := by
  intro h
  have hnan : ¬F32.isNaN (F32.add a b) = true := by
    rw [h]
    decide
  simp only [F32.isNaN_add_iff, not_or, Bool.not_eq_true] at hnan
  obtain ⟨hna, hnb, hopposite⟩ := hnan
  rcases F32.kind_cases a with ⟨hna', -, -⟩ | ⟨-, hai, -⟩ | ⟨-, -, haf⟩
  · exact absurd (hna.symm.trans hna') (by decide)
  · have hsign : F32.isInf b = true → F32.sign a = F32.sign b := fun hbi => by
      by_contra hne
      exact hopposite ⟨hai, hbi, hne⟩
    exact ha ((F32.add_of_isInf_left hai hnb hsign).symm.trans h)
  · rcases F32.kind_cases b with ⟨hnb', -, -⟩ | ⟨-, hbi, -⟩ | ⟨-, -, hbf⟩
    · exact absurd (hnb.symm.trans hnb') (by decide)
    · rw [F32.add_of_isInf_right haf hbi] at h
      rw [h] at hbi
      exact absurd hbi (by decide)
    · exact F32.addFinite_ne_negZero ha b ((F32.add_of_isFinite haf hbf).symm.trans h)

/-- Settles O45: the fold starts at `+0`, and no addition to an accumulator that is not `-0` gives `-0`. -/
theorem f32FeedNeverRespondsNegativeZero : Obligations.F32FeedNeverRespondsNegativeZero := by
  intro n coef f x
  rw [RingFilter.feed_snd]
  refine List.foldlRecOn (motive := fun acc => acc ≠ 0x80000000#32) _ _ (by decide) fun acc hacc j _ => ?_
  exact F32.add_ne_negZero hacc _

/-! ### Rounding to nearest -/

/-- A finite sum is the exact sum rounded once, under its own sign where it is not zero. -/
theorem F32.add_eq_round {a b : BitVec 32} (ha : F32.isFinite a = true) (hb : F32.isFinite b = true) :
    ∃ sign, (F32.units a + F32.units b ≠ 0 → sign = decide (F32.units a + F32.units b < 0)) ∧
      F32.add a b = F32.round sign (F32.units a + F32.units b).natAbs 1 :=
  ⟨_, fun hz => if_neg hz, (F32.add_of_isFinite ha hb).trans (F32.addFinite_eq_round a b)⟩

/-- Settles O42: the exact sum, rounded once, in units of `2^-149`. -/
theorem f32AddRoundsToNearestEven : Obligations.F32AddRoundsToNearestEven := by
  intro a b ha hb
  obtain ⟨sign, hsign, hadd⟩ := F32.add_eq_round ha hb
  rw [hadd]
  refine ⟨fun hlt => ?_, fun hge => ?_⟩
  · have hlt' := hlt.trans_eq (Nat.mul_one _).symm
    refine ⟨(F32.round_of_lt sign _ Nat.one_pos hlt').1, ?_⟩
    simpa only [F32.NearestTo, Nat.cast_one, mul_one] using F32.round_nearestTo Nat.one_pos hsign hlt'
  · have hz : F32.units a + F32.units b ≠ 0 := fun h => by simp [h] at hge
    rw [F32.round_of_ge sign _ Nat.one_pos (le_of_eq_of_le (Nat.mul_one _) hge), hsign hz]

/-- The exact product is the product of the magnitudes under the exclusive-or of the signs. -/
theorem F32.units_mul (h c : BitVec 32) :
    F32.units h * F32.units c =
      if F32.sign h ^^ F32.sign c then -((F32.magnitude h * F32.magnitude c : Nat) : Int)
      else (F32.magnitude h * F32.magnitude c : Nat) := by
  rw [F32.units, F32.units]
  cases F32.sign h with
  | false =>
    cases F32.sign c with
    | false => simp
    | true => simp
  | true =>
    cases F32.sign c with
    | false => simp
    | true => simp

theorem F32.natAbs_units_mul_units (h c : BitVec 32) :
    (F32.units h * F32.units c).natAbs = F32.magnitude h * F32.magnitude c := by
  rw [Int.natAbs_mul, F32.natAbs_units, F32.natAbs_units]

theorem F32.sign_of_units_mul_ne_zero {h c : BitVec 32} (hne : F32.units h * F32.units c ≠ 0) :
    (F32.sign h ^^ F32.sign c) = decide (F32.units h * F32.units c < 0) := by
  rw [F32.units_mul] at hne ⊢
  generalize F32.magnitude h * F32.magnitude c = m at hne ⊢
  generalize (F32.sign h ^^ F32.sign c) = s at hne ⊢
  cases s with
  | false => simp
  | true =>
    rw [if_pos rfl] at hne ⊢
    exact (decide_eq_true (by omega)).symm

/-- Settles O43: the exact product, rounded once, in units of `2^-298`. -/
theorem f32ScaleRoundsToNearestEven : Obligations.F32ScaleRoundsToNearestEven := by
  intro h c hh hc
  rw [F32.scale_of_isFinite hh hc, ← F32.natAbs_units_mul_units]
  refine ⟨F32.sign_round _ _ _, fun hlt => ⟨(F32.round_of_lt _ _ (Nat.two_pow_pos 149) hlt).1, ?_⟩, fun hge => ?_⟩
  · simpa only [F32.NearestTo, Nat.cast_pow, Nat.cast_ofNat] using
      F32.round_nearestTo (Nat.two_pow_pos 149) F32.sign_of_units_mul_ne_zero hlt
  · exact F32.round_of_ge _ _ (Nat.two_pow_pos 149) hge

end Sys2Proof.Machine
end

section
/-! The history (42_history.md): what HIST sends, what it sends after any feeds, and the window's two contiguous
views. -/

namespace Sys2Proof.Machine

/-! ### HIST on the machine -/

/-- HIST outside the fault state (42_history.md R172): the window, oldest first. -/
theorem exec_hist_of_clear {s : State} (hf : s.fault = 0) :
    exec .hist s = .next { s with rsp := some ⟨.ok, s.filter.window.map (sampleBeat s.cfg)⟩ } :=
  (exec_hist s).trans (unlessFaulted_of_clear s _ hf)

theorem RingFilter.window_getElem? {T : Type} {n : Nat} (f : RingFilter T n) (k : Fin n) :
    f.window[k.val]? = some (f.slot k) := by
  rw [List.getElem?_eq_getElem (by simp), RingFilter.window_getElem]

/-- Settles O13: beat `k` is window position `k`, which is the slot `k` places on from the cursor. -/
theorem histRespondsOldestFirst : Obligations.HistRespondsOldestFirst := by
  refine ⟨fun B data => decodeFields_of_op_ne_feed B (i := .hist) (by decide) data, fun s hf => ?_⟩
  refine ⟨_, exec_hist_of_clear hf, by simp, fun k i hi => ⟨?_, sampleBeat_toNat s.cfg _⟩⟩
  obtain rfl : i = circular s.filter.cursor k := Fin.ext hi
  rw [List.getElem?_map, RingFilter.window_getElem?, Option.map_some]
  rfl

/-! ### HIST after feeds -/

/-- The beats of HIST, as numbers, are the samples' own encodings (42_history.md R174). -/
theorem sampleBeats_toNat (B : Block) (vs : List B.Sample) :
    (vs.map (sampleBeat B)).map BitVec.toNat = vs.map BitVec.toNat := by
  rw [List.map_map]
  exact List.map_congr_left fun v _ => sampleBeat_toNat B v

/-- A code of a sample is the number of the sample it feeds (30_encoding.md R83). -/
theorem feedSample_toNat (B : Block) {x : Nat} (hx : x < 2 ^ B.fmt.wT) : (feedSample B x).toNat = x :=
  (BitVec.toNat_ofNat _ _).trans (Nat.mod_eq_of_lt hx)

theorem feedSamples_toNat (B : Block) {xs : List Nat} (hxs : ∀ x ∈ xs, x < 2 ^ B.fmt.wT) :
    (xs.map (feedSample B)).map BitVec.toNat = xs := by
  rw [List.map_map]
  exact (List.map_congr_left fun x hx => feedSample_toNat B (hxs x hx)).trans (List.map_id xs)

/-- HIST after feeds sends the window that the filter's own feeds leave: by induction on the feeds, none of which writes
`fault` or the configuration. -/
theorem runCommands_feeds_hist_getLast? {s : State} (hf : s.fault = 0) (xs : List Nat) :
    (runCommands s (xs.map Instr.feed ++ [.hist])).2.getLast? =
      some (some (.ok, (s.filter.feedAll (blockOps s.cfg) s.cfg.table
        (xs.map (feedSample s.cfg))).1.window.map BitVec.toNat)) := by
  induction xs generalizing s with
  | nil =>
    rw [List.map_nil, List.nil_append, runCommands_cons_snd (exec_hist_of_clear hf), ← sampleBeats_toNat]
    rfl
  | cons x xs ih =>
    rw [List.map_cons, List.cons_append, runCommands_cons_snd (exec_feed_of_clear hf x), List.getLast?_cons,
      ih]
    · rfl
    · exact hf

/-- As numbers, these are the last `N` of the window's samples and the codes fed after them (42_history.md R173). -/
theorem runCommands_feeds_hist_getLast?_eq_drop {s : State} (hf : s.fault = 0) {xs : List Nat}
    (hxs : ∀ x ∈ xs, x < 2 ^ s.cfg.fmt.wT) :
    (runCommands s (xs.map Instr.feed ++ [.hist])).2.getLast? =
      some (some (.ok, (s.filter.window.map BitVec.toNat ++ xs).drop xs.length)) := by
  rw [runCommands_feeds_hist_getLast? hf, RingFilter.window_feedAll, List.length_map, List.map_drop, List.map_append,
    feedSamples_toNat _ hxs]

/-- Settles O28: the window of reset holds `N` zeros. -/
theorem histReflectsTheLastFeeds : Obligations.HistReflectsTheLastFeeds := by
  intro B xs hxs
  have hzeros : (State.resetOf B).filter.window.map BitVec.toNat = List.replicate B.n B.fmt.zero.toNat :=
    (congrArg (List.map BitVec.toNat) (RingFilter.window_fresh B.n_pos B.fmt.zero)).trans List.map_replicate
  rw [runCommands_feeds_hist_getLast?_eq_drop (State.resetOf_fault B) hxs, hzeros]

/-! ### The two views -/

section
variable {T : Type} {n : Nat} (f : RingFilter T n)

@[simp] theorem RingFilter.viewOld_length : f.viewOld.length = n - f.cursor.val := by
  rw [RingFilter.viewOld, List.length_drop, Vector.length_toList]

@[simp] theorem RingFilter.viewNew_length : f.viewNew.length = f.cursor.val := by
  rw [RingFilter.viewNew, List.length_take_of_le (by simp)]

/-- Window order does not wrap within the old view, and goes on from the physical start in the new one. -/
theorem RingFilter.window_eq_viewOld_append_viewNew : f.window = f.viewOld ++ f.viewNew := by
  refine List.ext_getElem (by simp) fun j hj _ => ?_
  rw [RingFilter.window_length] at hj
  rw [RingFilter.window_getElem]
  by_cases hold : j < n - f.cursor.val
  · rw [List.getElem_append_left (by simpa using hold), f.slot_of_lt j (by omega)]
    simp [RingFilter.viewOld, Vector.get_eq_getElem]
  · obtain ⟨i, rfl⟩ := Nat.exists_eq_add_of_le (Nat.le_of_not_lt hold)
    rw [List.getElem_append_right (by simp), f.slot_wrapped i (by omega)]
    simp [RingFilter.viewNew, Vector.get_eq_getElem]

theorem RingFilter.viewOld_ne_nil : f.viewOld ≠ [] := by
  have hcursor : 0 < n - f.cursor.val := Nat.sub_pos_of_lt f.cursor.isLt
  exact List.ne_nil_of_length_pos (f.viewOld_length.symm ▸ hcursor)

end

/-- Settles O30: the cursor is below `N`, so at least its own slot is in the old view. -/
theorem windowIsTheTwoViews : Obligations.WindowIsTheTwoViews :=
  fun _ _ f => ⟨f.window_eq_viewOld_append_viewNew, f.viewOld_length, f.viewNew_length, f.viewOld_ne_nil⟩

end Sys2Proof.Machine
end

section
/-! Control (43_control.md): the number in STAT's word, what NEW leaves behind, and that no response depends on the
host's queue or on the response before it. -/

namespace Sys2Proof

/-- `IDX_BITS` bits hold every slot index (00_scope.md R9). -/
theorem Block.n_le_two_pow_idxBits (B : Block) : B.n ≤ 2 ^ B.idxBits :=
  (le_two_pow_ceilLog2 B.n).trans (Nat.pow_le_pow_right Nat.two_pos (Nat.le_max_right _ _))

end Sys2Proof

namespace Sys2Proof.Machine

/-! ### STAT -/

/-- The STAT word as a number (43_control.md R184): the cursor fits its field and the word fits the data field, so
neither is cut. -/
theorem State.statWord_toNat (s : State) : s.statWord.toNat = s.filter.cursor.val * 2 ^ 8 + s.fault.toNat := by
  have hcursor : s.filter.cursor.val < 2 ^ s.cfg.idxBits := s.filter.cursor.isLt.trans_le s.cfg.n_le_two_pow_idxBits
  have hlow : (0#5 ++ s.fault).toNat = s.fault.toNat := by
    rw [BitVec.toNat_append, BitVec.toNat_zero, Nat.zero_shiftLeft, Nat.zero_or]
  calc s.statWord.toNat
      = (BitVec.ofNat s.cfg.idxBits s.filter.cursor.val ++ (0#5 ++ s.fault)).toNat :=
        BitVec.toNat_setWidth_of_le s.cfg.idxBits_add_le_dataBits
    _ = (s.filter.cursor.val <<< 8) + (0#5 ++ s.fault).toNat := by
        rw [BitVec.toNat_append, BitVec.toNat_ofNat, Nat.mod_eq_of_lt hcursor,
          ← Nat.shiftLeft_add_eq_or_of_lt (0#5 ++ s.fault).isLt]
    _ = s.filter.cursor.val * 2 ^ 8 + s.fault.toNat := by rw [hlow, Nat.shiftLeft_eq]

/-- Settles O14: STAT has no guard, and its beat is the STAT word. -/
theorem statShowsCursorAndFault : Obligations.StatShowsCursorAndFault :=
  ⟨fun B data => decodeFields_of_op_ne_feed B (i := .stat) (by decide) data,
    fun s => ⟨s.statWord, exec_stat s, s.statWord_toNat⟩⟩

/-! ### NEW -/

/-- NEW outside the fault state (43_control.md R180): the filter of reset, and an OK beat 0. -/
theorem exec_new_of_clear {s : State} (hf : s.fault = 0) :
    exec .new s = .next { s with
      filter := RingFilter.fresh s.cfg.n_pos s.cfg.fmt.zero
      rsp := some ⟨.ok, [0]⟩ } :=
  (exec_new s).trans (unlessFaulted_of_clear s _ hf)

/-- Settles O11: every slot of a fresh filter is zero. -/
theorem newZeroesTheFilter : Obligations.NewZeroesTheFilter :=
  ⟨fun B data => decodeFields_of_op_ne_feed B (i := .new) (by decide) data,
    fun s hf => ⟨_, exec_new_of_clear hf, rfl, get_replicate s.cfg.fmt.zero⟩⟩

/-! ### Commands read the configuration, the filter and `fault` alone -/

/-- `t` is `s` but for the host's queue. -/
def State.SameButQueue (s t : State) : Prop :=
  ∃ host : List (HostEvent s.cfg.cmdBits), t = { s with host := host }

/-- `t` is `s` but for the host's queue and the response shown: the same configuration and architectural state
(10_state.md R20). -/
def State.SameArchitectural (s t : State) : Prop :=
  ∃ (host : List (HostEvent s.cfg.cmdBits)) (rsp : Option (Response s.cfg.dataBits)),
    t = { s with host := host, rsp := rsp }

/-- The fault test has one answer on both states, and a refusal reads `fault` alone. -/
theorem exec_sameButQueue_of_guarded {i : Instr} {run : State → State}
    (hguard : ∀ s, exec i s = unlessFaulted s run) {s s' : State} (h : s.SameArchitectural s')
    (hrun : (run s).SameButQueue (run s')) :
    ∃ t t', exec i s = .next t ∧ exec i s' = .next t' ∧ t.SameButQueue t' := by
  obtain ⟨host, rsp, rfl⟩ := h
  rw [hguard, hguard]
  by_cases hf : s.fault = 0
  · exact ⟨_, _, unlessFaulted_of_clear s run hf, unlessFaulted_of_clear _ run hf, hrun⟩
  · exact ⟨_, _, unlessFaulted_of_faulted s run hf, unlessFaulted_of_faulted _ run hf, host, rfl⟩

/-- No command reads the queue or the response shown, and every command writes its own response. -/
theorem exec_sameButQueue (i : Instr) {s s' : State} (h : s.SameArchitectural s') :
    ∃ t t', exec i s = .next t ∧ exec i s' = .next t' ∧ t.SameButQueue t' := by
  obtain ⟨host, rsp, rfl⟩ := id h
  cases i with
  | size => exact exec_sameButQueue_of_guarded exec_size h ⟨host, rfl⟩
  | coef => exact exec_sameButQueue_of_guarded exec_coef h ⟨host, rfl⟩
  | vsym =>
    refine exec_sameButQueue_of_guarded exec_vsym h ?_
    cases palindromic s.cfg with
    | true => exact ⟨host, rfl⟩
    | false => exact ⟨host, rfl⟩
  | new => exact exec_sameButQueue_of_guarded exec_new h ⟨host, rfl⟩
  | feed x => exact exec_sameButQueue_of_guarded (exec_feed x) h ⟨host, rfl⟩
  | hist => exact exec_sameButQueue_of_guarded exec_hist h ⟨host, rfl⟩
  | stat => exact ⟨_, _, exec_stat s, exec_stat _, host, rfl⟩
  | reserved7 => exact exec_sameButQueue_of_guarded exec_reserved7 h ⟨host, rfl⟩

/-- One architectural state, one sequence of responses: by induction on the commands, over all pairs of such states. -/
theorem runCommands_sameArchitectural {s s' : State} (h : s.SameArchitectural s') (cs : List Instr) :
    (runCommands s' cs).2 = (runCommands s cs).2 := by
  induction cs generalizing s s' with
  | nil => rfl
  | cons i cs ih =>
    obtain ⟨t, _, hs, hs', host, rfl⟩ := exec_sameButQueue i h
    rw [runCommands_cons_snd hs, runCommands_cons_snd hs', ih ⟨host, t.rsp, rfl⟩]

/-- NEW leaves the architectural state of reset, whatever queue it leaves waiting. -/
theorem exec_new_sameArchitectural_resetOf {s t : State} (hf : s.fault = 0) (h : exec .new s = .next t) :
    (State.resetOf s.cfg).SameArchitectural t := by
  obtain rfl := Host.Outcome.next.inj ((exec_new_of_clear hf).symm.trans h)
  exact ⟨s.host, _, by rw [hf]; rfl⟩

/-- Settles O26: after NEW and after reset the block holds one architectural state. -/
theorem newIsAsGoodAsReset : Obligations.NewIsAsGoodAsReset :=
  fun _ _ cs hf h => runCommands_sameArchitectural (exec_new_sameArchitectural_resetOf hf h) cs

end Sys2Proof.Machine
end

section
/-! Exceptions (60_exceptions.md): the fault state refuses every command but STAT and only a reset leaves it; outside it VSYM
and op 7 raise, and nothing else does. -/

namespace Sys2Proof.Machine

/-! ### Raising -/

/-- The converse of the raising case of `exec_cases`: a command that may raise does, where `fault` is 0. -/
theorem exec_of_mayRaise {s : State} {i : Instr} {c : Cause} (hf : s.fault = 0) (hc : s.MayRaise i c) :
    exec i s = .next (s.raise c) := by
  cases hc with
  | vsym hpal => rw [exec_vsym, unlessFaulted_of_clear s _ hf, hpal, if_neg Bool.false_ne_true]
  | reserved7 => exact (exec_reserved7 s).trans (unlessFaulted_of_clear s _ hf)

/-- op 7 outside the fault state (60_exceptions.md R194). -/
theorem exec_reserved7_of_clear {s : State} (hf : s.fault = 0) :
    exec .reserved7 s =
      .next { s with fault := 3, rsp := some ⟨.fault, [BitVec.ofNat s.cfg.dataBits 3]⟩ } := by
  rw [exec_of_mayRaise hf .reserved7, State.raise, causeBeat_eq_ofNat]
  rfl

/-- Settles O15: op 7 has no operand to decode, and IllegalCommand has code 3. -/
theorem reservedCodeRaisesIllegalCommand : Obligations.ReservedCodeRaisesIllegalCommand :=
  ⟨fun B data => decodeFields_of_op_ne_feed B (i := .reserved7) (by decide) data,
    fun _ hf => exec_reserved7_of_clear hf⟩

theorem Cause.code_ne_zero (c : Cause) : c.code ≠ 0 := by
  cases c with
  | symmetryViolation | illegalCommand => decide

theorem State.exists_mayRaise_iff (s : State) (i : Instr) :
    (∃ c, s.MayRaise i c) ↔ (i = .vsym ∧ ¬ s.cfg.Palindromic) ∨ i = .reserved7 := by
  rw [← palindromic_eq_true_iff, Bool.not_eq_true]
  constructor
  · rintro ⟨_, hpal | -⟩
    · exact .inl ⟨rfl, hpal⟩
    · exact .inr rfl
  · rintro (⟨rfl, hpal⟩ | rfl)
    · exact ⟨_, .vsym hpal⟩
    · exact ⟨_, .reserved7⟩

theorem State.MayRaise.code_eq {s : State} {i : Instr} {c : Cause} (hc : s.MayRaise i c) :
    c.code = if i = .vsym then 1 else 3 := by
  cases hc with
  | vsym | reserved7 => rfl

/-- `fault` changes by a raise alone: a refusal and an answer keep it. -/
theorem exec_raises_of_fault_ne {i : Instr} {s t : State} (h : exec i s = .next t) (hne : t.fault ≠ s.fault) :
    s.fault = 0 ∧ ∃ c, s.MayRaise i c ∧ t = s.raise c := by
  obtain ⟨-, rfl⟩ | ⟨f, beats, -, -, rfl⟩ | ⟨c, hf, hc, rfl⟩ := exec_cases h
  · exact absurd rfl hne
  · exact absurd rfl hne
  · exact ⟨hf, c, hc, rfl⟩

/-- Settles O20: a change of `fault` is a raise, and a raise in the state 0 is a change, since no cause has code 0. -/
theorem onlyVsymAndReservedCodeRaise : Obligations.OnlyVsymAndReservedCodeRaise := by
  intro i s t h
  rw [← s.exists_mayRaise_iff i]
  refine ⟨⟨fun hne => ?_, fun ⟨hf, c, hc⟩ => ?_⟩, fun hne => ?_⟩
  · obtain ⟨hf, c, hc, -⟩ := exec_raises_of_fault_ne h hne
    exact ⟨hf, c, hc⟩
  · obtain rfl := Host.Outcome.next.inj ((exec_of_mayRaise hf hc).symm.trans h)
    exact hf ▸ c.code_ne_zero
  · obtain ⟨-, c, hc, rfl⟩ := exec_raises_of_fault_ne h hne
    exact hc.code_eq

/-! ### The fault state -/

theorem State.refuse_eq (s : State) :
    s.refuse = { s with rsp := some ⟨.refused, [BitVec.ofNat s.cfg.dataBits s.fault.toNat]⟩ } := by
  rw [State.refuse, causeBeat_eq_ofNat, State.respond]

/-- Settles O16: the guard refuses, STAT has no guard, and op 7 raises where the guard passes. -/
theorem faultStateRefusesAllButStat : Obligations.FaultStateRefusesAllButStat :=
  ⟨fun _ s hf hi => (exec_of_faulted hf hi).trans (congrArg _ s.refuse_eq), fun s _ => statShowsCursorAndFault.2 s,
    fun _ hf => exec_reserved7_of_clear hf⟩

/-- In the fault state a command, STAT included, writes its response alone. -/
theorem exec_frame_of_faulted {i : Instr} {s t : State} (hf : s.fault ≠ 0) (h : exec i s = .next t) :
    ∃ r, t = { s with rsp := r } := by
  by_cases hi : i = .stat
  · subst hi
    exact ⟨_, (Host.Outcome.next.inj h).symm⟩
  · exact ⟨_, Host.Outcome.next.inj (h.symm.trans (exec_of_faulted hf hi))⟩

/-- Settles O25: with no reset the block waits, or runs a command that writes its response alone. -/
theorem onlyResetLeavesTheFaultState : Obligations.OnlyResetLeavesTheFaultState := by
  intro s t hf hreset hstep
  obtain ⟨hhost, rfl⟩ | ⟨rest, hhost, -⟩ | ⟨word, rest, -, hexec⟩ := step_cases hstep
  · have htail : s.host.tail = s.host := by rw [hhost, List.tail_nil]
    exact ⟨none, by rw [htail, State.idle]⟩
  · exact absurd hhost (hreset rest)
  · exact exec_frame_of_faulted (s := s.dropEvent) hf hexec

end Sys2Proof.Machine
end

section
/-! Reset and hazards (70_reset_and_hazards.md): a read command leaves nothing that a later command reads, and a reset edge
abandons what is in progress on the port. -/

namespace Sys2Proof.Machine

/-! ### Read commands -/

/-- No command reads the response shown: what it writes does not depend on it (`exec_sameButQueue`), and the queue, which that
leaves open, is in its frame. -/
theorem exec_of_rsp (i : Instr) (s : State) (r : Option (Response s.cfg.dataBits)) :
    exec i { s with rsp := r } = exec i s := by
  obtain ⟨t, _, hs, hs', host, rfl⟩ := exec_sameButQueue i (s := s) ⟨s.host, r, rfl⟩
  obtain ⟨f, c, r₁, rfl⟩ := exec_sameOutside hs
  obtain ⟨f', c', r₂, heq⟩ := exec_sameOutside hs'
  obtain rfl : host = s.host := by injection heq
  rw [hs, hs']

/-- SIZE, COEF, HIST and STAT write their response alone, in the fault state too. -/
theorem exec_frame_of_read {i : Instr} {s t : State} (hi : i = .size ∨ i = .coef ∨ i = .hist ∨ i = .stat)
    (h : exec i s = .next t) : ∃ r, t = { s with rsp := r } := by
  obtain ⟨f, c, r, rfl, hwrites⟩ := commandsChangeOnlyWhatTheyMay i s t h
  obtain ⟨rfl, rfl⟩ : f = s.filter ∧ c = s.fault := by
    obtain rfl | rfl | rfl | rfl := hi <;> exact hwrites
  exact ⟨r, rfl⟩

/-- Settles O21: all that a read command writes is the response shown, which no command reads. -/
theorem readCommandsChangeNoLaterResponse : Obligations.ReadCommandsChangeNoLaterResponse := by
  intro i s t hi h j
  obtain ⟨r, rfl⟩ := exec_frame_of_read hi h
  exact exec_of_rsp j s r

/-! ### Reset at the port -/

theorem Port.taken_reset (p : Port) (i : PortIn) (h : i.rst = true) : p.taken i = [] := by
  rw [Port.taken, h, Bool.not_true, Bool.and_false, if_neg Bool.false_ne_true]

/-- Settles O50: a reset edge leaves the core after `hardReset` and no delivery, and the output pins show just that. -/
theorem portResetAbandonsTheCommand : Obligations.PortResetAbandonsTheCommand := by
  intro p i hrst
  rw [Port.edge_reset p i hrst]
  exact ⟨rfl, p.taken_reset i hrst, rfl⟩

end Sys2Proof.Machine
end
